-- ==== Sys2Proof/Word.lean ====
section
/-! DEFINITION. The value types of the block (spec/00_scope.md R15): every value is unsigned and fixed in width. -/

namespace Sys2Proof

/-- R15: an 8-bit value. -/
abbrev Byte := BitVec 8

/-- R15, R51: a 7-bit bus address. -/
abbrev Addr7 := BitVec 7

/-- R15, R52: an 8-bit offset inside a device. -/
abbrev Off8 := BitVec 8

/-- R20: the width of the CRC register. -/
abbrev Crc := BitVec 5

/-- R92: the 16-bit count field of a frame. -/
abbrev Count := BitVec 16

end Sys2Proof
end

