-- ==== Sys2Proof/Config.lean ====
section
/-! DEFINITION. What a launch fixes (the parameters of spec/00_scope.md R7 to R13) and what the spec leaves to
draws (spec/40_i2c_channel.md R121, spec/20_memory.md R54 to R62). -/

namespace Sys2Proof

/-- R25, R242: the causes an IoError can report. -/
inductive Cause where
  | unknown | nack | timeout | absent | arbLost
  deriving DecidableEq, Repr, Inhabited

/-- R12: what a sequential read past offset CAP−1 returns. -/
inductive ReadWrap where
  | wrap | any
  deriving DecidableEq, Repr

/-- R13: the letter case of the host decoder's hex rendering. -/
inductive HexCase where
  | lower | upper
  deriving DecidableEq, Repr

/-- The launch parameters (R7 to R13, R274). They are construction-time configuration: no step changes them. -/
structure Params where
  /-- R7: the value a message starts from. -/
  init : Crc
  /-- R8: the feedback constant. -/
  poly : Crc
  /-- R9: bytes per device. -/
  cap : Nat
  /-- R10: the write-cycle interval in milliseconds; no rule of the machine reads it. -/
  tWc : Nat
  /-- R11: the most bytes one transaction may carry. -/
  maxXfer : Nat
  /-- R12. -/
  readWrap : ReadWrap
  /-- R13: read by the header decoder alone. -/
  hexCase : HexCase
  deriving DecidableEq, Repr

/-- The bounds that R9 and R11 put on the parameters. -/
abbrev Params.wf (p : Params) : Prop := 1 ≤ p.cap ∧ p.cap ≤ 256 ∧ 2 ≤ p.maxXfer

/-- The spec's defaults (R7 to R10). MAX_XFER, READ_WRAP and HEX_CASE are OPEN in the spec: DESIGN CHOICE, unsafe,
notes/assumptions/4.md. -/
def Params.launch : Params where
  init := 0x1F#5
  poly := 0x15#5
  cap := 256
  tWc := 10
  maxXfer := 256
  readWrap := .any
  hexCase := .lower

/-- The channel's answer to one transaction (R121: "the outcome is a draw"). It says what happens if the device is
present and idle (`ok`), what happens if it is in its write cycle (`okInHazard`, R62), and which cause an Err
reports (`cause`, R134). DESIGN CHOICE, safe, notes/assumptions/7.md. -/
structure TxDraw where
  ok : Bool
  okInHazard : Bool
  cause : Cause
  deriving DecidableEq, Repr, Inhabited

namespace Config

/-- The free answer of the channel to the transaction with this number, once State.chan lists none (log 7). -/
opaque freeTx : Nat → TxDraw

/-- The free byte that transaction number `t` leaves at a memory offset (R54, R61; log 8). -/
opaque freeMemByte : (t offset : Nat) → Byte

/-- The free byte that transaction number `t` returns at a read position (R59, R60, R62; log 8). -/
opaque freeReadByte : (t position : Nat) → Byte

end Config

end Sys2Proof
end

