-- ==== Sys2Proof/Machine/Crc5.lean ====
section
/-! DEFINITION. The CRC5 functions (spec/42_crc5.md R180 to R183), Galois form (DEDUCED from R180, log 14). -/

namespace Sys2Proof.Machine

/-- R180: the bit step. -/
def crc5Bit (poly : Crc) (c : Crc) (b : Bool) : Crc :=
  let fb := b ^^ c.getLsbD 4
  let t := c <<< 1
  if fb then t ^^^ poly else t

/-- R182: `n` bits of the byte copy `t`, most significant first. -/
def crc5Shift (poly : Crc) : Nat → Crc → Byte → Crc
  | 0, c, _ => c
  | n + 1, c, t => crc5Shift poly n (crc5Bit poly c (t.getLsbD 7)) (t <<< 1)

/-- R182: the byte step. -/
def crc5Byte (poly : Crc) (c : Crc) (d : Byte) : Crc := crc5Shift poly 8 c d

/-- R183, R188: feed a byte sequence. -/
def crc5Bytes (poly : Crc) (c : Crc) (bs : List Byte) : Crc := bs.foldl (crc5Byte poly) c

/-- R183: the message checksum. -/
def crc5 (p : Params) (bs : List Byte) : Crc := crc5Bytes p.poly p.init bs

end Sys2Proof.Machine
end

