-- ==== Sys2Proof/Machine/State.lean ====
section
/-! DEFINITION. The state of the block, its environment and its host (spec/10_state.md R20 to R36), the two ways a step
can stop, and the state after reset. -/

namespace Sys2Proof.Machine

/-- The memory of one device: (offset, byte) pairs, offsets strictly rising, none listed that holds the byte an
unlisted offset reads as (Memory.unlisted, notes/assumptions/6.md). -/
abbrev Memory := List Host.Cell

/-- R31: a present EEPROM device. -/
structure Device where
  /-- MEM. -/
  mem : Memory
  /-- PTR: the offset the next sequential read starts at; none means unknown. -/
  ptr : Option Off8
  /-- WCP: a write cycle may still be running. -/
  wcp : Bool
  /-- R282 (b): the device's own write-cycle time in milliseconds. No rule reads it and no transaction changes it; it is
  what the premise Safety.WriteCycleFits compares with T_WC (the model's own field, notes/assumptions/13.md). -/
  cycle : Nat
  deriving DecidableEq, Repr

/-- R121: the outcome of a write transaction. -/
inductive WriteOutcome where
  | ok
  | err (c : Cause)
  deriving DecidableEq, Repr

/-- R121: the outcome of a read transaction. -/
inductive ReadOutcome where
  | ok (bs : List Byte)
  | err (c : Cause)
  deriving DecidableEq, Repr

/-- R33: the events of the history. -/
inductive Event where
  /-- TxW: one write transaction. -/
  | txW (a : Addr7) (bs : List Byte) (r : WriteOutcome)
  /-- TxR: one read transaction. -/
  | txR (a : Addr7) (n : Nat) (r : ReadOutcome)
  /-- Delay: one wait of at least T_WC. -/
  | delay
  deriving DecidableEq, Repr

/-- R27: the response of one command. -/
structure Rsp where
  status : Byte
  data : List Byte
  deriving DecidableEq, Repr

/-- R131: the states of the byte-level transceiver. -/
inductive Fsm where
  | idle
  | addr
  | wdata (i : Nat)
  | rdata (i : Nat)
  | stop
  deriving DecidableEq, Repr

/-- What the host may do between two commands. -/
inductive HostAct where
  /-- R278: it replaces the device at an address by a new one, or by none. -/
  | swap (a : Addr7) (d : Option Device)
  /-- R270: it resets the block (DEDUCED, notes/assumptions/11.md). -/
  | reset
  deriving DecidableEq, Repr

/-- One act of the host and the bytes it sends after it. -/
structure Phase where
  act : HostAct
  stream : List Byte
  deriving DecidableEq, Repr

/-- The machine. R35: CRC, STATUS, cmd, DEV and HIST; R131: the transceiver's state; and the model's own fields: the
launch parameters (log 4), the responses given (log 9), the host's input (log 2) and the channel's draws (logs 7, 8). -/
structure State where
  /-- CRC (R20). -/
  crc : Crc
  /-- STATUS (R24). -/
  status : Byte
  /-- cmd (R29): the index of the next frame. -/
  cmd : Nat
  /-- DEV (R30): the present devices by bus address, addresses strictly rising. -/
  dev : List (Nat × Device)
  /-- HIST (R33), oldest event first. -/
  hist : List Event
  /-- The transceiver's state (R131, R270). -/
  fsm : Fsm
  /-- The responses given so far (R27, R36), oldest first: the output. -/
  rsps : List Rsp
  /-- The launch parameters (R7 to R13). -/
  cfg : Params
  /-- The bytes the host sends before its next act (R90). -/
  stream : List Byte
  /-- The host's later acts (R278), each with the bytes it sends after it. -/
  phases : List Phase
  /-- The channel's answers to the transactions to come (R121). -/
  chan : List TxDraw
  /-- How many transactions have been performed: it indexes the free values. -/
  tx : Nat
  deriving DecidableEq, Repr

/-- Why a step stops. Neither is an instruction's: the block has no step there. -/
inductive Fault where
  /-- Raised by step when the host's stream ends inside a frame (R105: the run is stuck). Safe. -/
  | incompleteFrame
  /-- Raised by step when the host has no frame left to send (R36: the run has ended). Safe. -/
  | runEnded
  deriving DecidableEq, Repr

/-- Why an instruction has no meaning. -/
inductive Refusal where
  /-- Raised by an arm of exec whose instruction is not modelled yet; no arm raises it. Safe. -/
  | notModelled (mnemonic : String)
  deriving DecidableEq, Repr

/-- The machine after reset (R270, R35) with the spec's default parameters. DEV is a launch parameter: no device is
present (DESIGN CHOICE, unsafe, log 5). No frame has been sent (log 1). -/
def State.reset : State where
  crc := Params.launch.init
  status := 0x00#8
  cmd := 0
  dev := []
  hist := []
  fsm := .idle
  rsps := []
  cfg := Params.launch
  stream := []
  phases := []
  chan := []
  tx := 0

end Sys2Proof.Machine
end

