-- ==== Sys2Proof/Machine/Operands.lean ====
section
/-! DEFINITION. The operand fields of a frame as a command uses them (spec/30_encoding.md R92 to R97, R102). -/

namespace Sys2Proof.Machine

/-- R93: the bus address operand `a = A[6:0]`. -/
def busAddr (a : Byte) : Addr7 := a.extractLsb' 0 7

/-- R93, R102: the reserved bit `A[7]` is set. -/
def addrReserved (a : Byte) : Bool := a.getLsbD 7

/-- R95: CRC_BIT's data bit `D8[0]`. -/
def dataBit (d8 : Byte) : Bool := d8.getLsbD 0

/-- R95, R102: CRC_BIT's reserved bits `D8[7:1]` are not all zero. -/
def dataBitReserved (d8 : Byte) : Bool := d8.extractLsb' 1 7 != 0#7

/-- R123, R124, R152: a transfer length the channel does not carry. -/
def badLength (p : Params) (n : Nat) : Bool := n == 0 || decide (p.maxXfer < n)

/-- R151, R191: the range runs past the capacity; the sum is a natural number and does not wrap. -/
def pastCapacity (p : Params) (off : Off8) (n : Nat) : Bool := decide (p.cap < off.toNat + n)

/-- R191: the offset byte `OFF + i` of an EE_WRITE transaction; below CAP ≤ 256 nothing is truncated. -/
def offsetByte (n : Nat) : Off8 := BitVec.ofNat 8 n

end Sys2Proof.Machine
end

