-- ==== Sys2Proof/Machine/Flags.lean ====
section
/-! DEFINITION. The error kinds and the STATUS register (spec/10_state.md R24, R25; spec/60_exceptions.md R241, R242):
bits 1 to 0 are RES, bits 4 to 2 CAUSE, bits 7 to 5 read 0. -/

namespace Sys2Proof.Machine

/-- R242: the reasons of a CfgError. -/
inductive CfgReason where
  | length | capacity
  deriving DecidableEq, Repr

/-- R242: the reasons of an Illegal. -/
inductive IllegalReason where
  | badOp | rsvd
  deriving DecidableEq, Repr

/-- R242: what a command can raise. -/
inductive Error where
  | io (c : Cause)
  | cfg (r : CfgReason)
  | illegal (r : IllegalReason)
  deriving DecidableEq, Repr

/-- R25: CAUSE of an IOERR. -/
def causeCode : Cause → BitVec 3
  | .unknown => 0
  | .nack => 1
  | .timeout => 2
  | .absent => 3
  | .arbLost => 4

/-- R25: CAUSE of a CFGERR. -/
def cfgCode : CfgReason → BitVec 3
  | .length => 0
  | .capacity => 1

/-- R25: CAUSE of an ILLEGAL. -/
def illegalCode : IllegalReason → BitVec 3
  | .badOp => 0
  | .rsvd => 1

/-- R24: STATUS from its fields. -/
def statusOf (cause : BitVec 3) (res : BitVec 2) : Byte := 0#3 ++ cause ++ res

/-- R25: STATUS of a command that ends OK. -/
def statusOk : Byte := statusOf 0 0

/-- R241: STATUS of a command that raises an error. -/
def Error.status : Error → Byte
  | .io c => statusOf (causeCode c) 1
  | .cfg r => statusOf (cfgCode r) 2
  | .illegal r => statusOf (illegalCode r) 3

/-- R24: the field RES. -/
def statusRes (st : Byte) : BitVec 2 := st.extractLsb' 0 2

/-- R24: the field CAUSE. -/
def statusCause (st : Byte) : BitVec 3 := st.extractLsb' 2 3

end Sys2Proof.Machine
end

