-- ==== Sys2Proof/Machine/Ops.lean ====
section
/-! DEFINITION. The operations every command is made of: keyed lists, device memory, the device map, the end of a
command, raising an error, the channel's draws, the wait, and reset. -/

namespace Sys2Proof.Machine

/-- What a command answers. -/
abbrev Result := Host.Outcome State Fault Refusal

/-! ### Keyed lists -/

/-- The entry of a key. -/
def lookupKey {α : Type} (k : Nat) : List (Nat × α) → Option α
  | [] => none
  | e :: l => if e.1 = k then some e.2 else lookupKey k l

/-- Set a key's entry, keeping the keys rising. -/
def insertKey {α : Type} (k : Nat) (v : α) : List (Nat × α) → List (Nat × α)
  | [] => [(k, v)]
  | e :: l =>
    if k < e.1 then (k, v) :: e :: l
    else if e.1 = k then (k, v) :: l
    else e :: insertKey k v l

/-- Remove a key. -/
def eraseKey {α : Type} (k : Nat) (l : List (Nat × α)) : List (Nat × α) :=
  l.filter fun e => !(e.1 == k)

/-- Change the entry of a key that has one. -/
def adjustKey {α : Type} (k : Nat) (f : α → α) (l : List (Nat × α)) : List (Nat × α) :=
  l.map fun e => if e.1 = k then (e.1, f e.2) else e

/-- The keys are strictly rising. -/
abbrev keysRising {α : Type} (l : List (Nat × α)) : Prop := (l.map Prod.fst).Pairwise (· < ·)

/-! ### Device memory (R31, R52) -/

/-- What an offset that the list does not name reads as (DESIGN CHOICE, unsafe, notes/assumptions/6.md). -/
def Memory.unlisted : Byte := 0xFF#8

/-- MemRead of one byte (R16). -/
def Memory.read (m : Memory) (o : Nat) : Byte := (lookupKey o m).getD Memory.unlisted

/-- MemWrite of one byte (R16); it keeps the canonical form. -/
def Memory.write (m : Memory) (o : Nat) (v : Byte) : Memory :=
  if v = Memory.unlisted then eraseKey o m else insertKey o v m

/-- The memory of `cap` bytes that holds `f o` at each offset `o`. -/
def Memory.fill (cap : Nat) (f : Nat → Byte) : Memory :=
  (List.range cap).filterMap fun o => if f o = Memory.unlisted then none else some (o, f o)

/-- The canonical form of a memory: equal contents are equal data. -/
abbrev Memory.canonical (m : Memory) : Prop := keysRising m ∧ ∀ c ∈ m, c.2 ≠ Memory.unlisted

/-- R31: no byte of the memory stands at `cap` or above. -/
abbrev Memory.within (cap : Nat) (m : Memory) : Prop := ∀ c ∈ m, c.1 < cap

/-- The memory of a device of `cap` bytes, in canonical form. -/
abbrev Memory.wf (cap : Nat) (m : Memory) : Prop := Memory.canonical m ∧ Memory.within cap m

/-! ### The device map (R30) -/

/-- `DEV[a]`. -/
def State.device (s : State) (a : Addr7) : Option Device := lookupKey a.toNat s.dev

/-- R278: put another device, or none, at an address. -/
def swapDevice (a : Addr7) (d : Option Device) (dev : List (Nat × Device)) : List (Nat × Device) :=
  match d with
  | some d => insertKey a.toNat d dev
  | none => eraseKey a.toNat dev

/-! ### The end of a command -/

/-- R24, R27, R29: write STATUS, give the response and move to the next frame. -/
def respond (status : Byte) (data : List Byte) (s : State) : State :=
  { s with status := status, rsps := s.rsps ++ [⟨status, data⟩], cmd := s.cmd + 1 }

/-- The command ends OK, having emitted `data`. -/
def finish (data : List Byte) (s : State) : Result := .next (respond statusOk data s)

/-- R241: raise an error. It ends the command with no data; what was done before it remains (R248). -/
def raise (e : Error) (s : State) : Result := .next (respond e.status [] s)

/-! ### The channel's draws (R121) -/

/-- The channel's answer to the `k`-th transaction from here (log 7). -/
def State.draw (s : State) (k : Nat) : TxDraw := (s.chan[k]?).getD (Config.freeTx (s.tx + k))

/-! ### The wait (R63, R160) -/

/-- A Delay ends a device's write cycle. -/
def Device.rest (d : Device) : Device := { d with wcp := false }

/-- `Wait(T_WC)`: log a Delay and end every write cycle. -/
def waitWriteCycle (s : State) : State :=
  { s with dev := s.dev.map fun e => (e.1, e.2.rest), hist := s.hist ++ [.delay] }

/-! ### Reset (R270) -/

/-- Reset the block: CRC, STATUS and the transceiver; the devices are untouched (log 11 on the fields R270 leaves out). -/
def resetBlock (s : State) : State :=
  { s with crc := s.cfg.init, status := statusOk, fsm := .idle }

end Sys2Proof.Machine
end

