-- ==== Sys2Proof/Machine/CrcCommands.lean ====
section
/-! DEFINITION. The five commands of C5G (spec/42_crc5.md R184 to R188). -/

namespace Sys2Proof.Machine

/-- Write the CRC register (R20). -/
def State.withCrc (s : State) (c : Crc) : State := { s with crc := c }

/-- R187, R188: the CRC register as a response byte, bits 7 to 5 zero. -/
def crcByteOf (c : Crc) : Byte := c.setWidth 8

/-- R184: CRC_INIT. -/
def execCrcInit (s : State) : Result := finish [] (s.withCrc s.cfg.init)

/-- R185: CRC_BIT. -/
def execCrcBit (d8 : Byte) (s : State) : Result :=
  if dataBitReserved d8 then raise (.illegal .rsvd) s
  else finish [] (s.withCrc (crc5Bit s.cfg.poly s.crc (dataBit d8)))

/-- R186: CRC_BYTE. -/
def execCrcByte (d8 : Byte) (s : State) : Result :=
  finish [] (s.withCrc (crc5Byte s.cfg.poly s.crc d8))

/-- R187: CRC_READ. -/
def execCrcRead (s : State) : Result := finish [crcByteOf s.crc] s

/-- R188: CRC_MSG. -/
def execCrcMsg (d : List Byte) (s : State) : Result :=
  finish [crcByteOf (crc5 s.cfg d)] (s.withCrc (crc5 s.cfg d))

end Sys2Proof.Machine
end

