-- ==== Sys2Proof/Machine/EepromDevice.lean ====
section
/-! DEFINITION. What one transaction does to the device it addresses (spec/20_memory.md R54 to R62). `t` is the number
of the transaction: it indexes the free values (log 8). -/

namespace Sys2Proof.Machine

/-- R54: every byte becomes a draw and PTR unknown. -/
def Device.havoc (cap t : Nat) (d : Device) : Device :=
  { d with mem := Memory.fill cap (Config.freeMemByte t), ptr := none }

/-- R57, R58, R61: havoc, and a write cycle may be running. -/
def Device.havocBusy (cap t : Nat) (d : Device) : Device := { d.havoc cap t with wcp := true }

/-- R56, R61: one byte stored, a write cycle started, PTR unknown. -/
def Device.store (o : Off8) (v : Byte) (d : Device) : Device :=
  { d with mem := Memory.write d.mem o.toNat v, ptr := none, wcp := true }

/-- R55 to R58: an Ok write transaction to an idle device. -/
def Device.writeOk (cap t : Nat) (bs : List Byte) (d : Device) : Device :=
  match bs with
  | [o] => { d with ptr := some o }
  | [o, v] => if o.toNat < cap then d.store o v else d.havocBusy cap t
  | _ => d.havocBusy cap t

/-- R61: a failed write transaction to an idle device. -/
def Device.writeErr (cap t : Nat) (bs : List Byte) (d : Device) : Device :=
  match bs with
  | [_] => { d with ptr := none }
  | [o, _] => if o.toNat < cap then d.store o (Config.freeMemByte t o.toNat) else d.havocBusy cap t
  | _ => d.havocBusy cap t

/-- R55 to R58, R61, R62: the device after a write transaction. Under a write cycle it is havocked and stays busy. -/
def Device.afterWrite (cap t : Nat) (bs : List Byte) (r : WriteOutcome) (d : Device) : Device :=
  if d.wcp then d.havoc cap t
  else
    match r with
    | .ok => d.writeOk cap t bs
    | .err _ => d.writeErr cap t bs

/-- R59, R60: the byte at read position `k` from an idle device. -/
def Device.readByte (p : Params) (t k : Nat) (d : Device) : Byte :=
  match d.ptr with
  | none => Config.freeReadByte t k
  | some o =>
    if o.toNat + k < p.cap then Memory.read d.mem (o.toNat + k)
    else
      match p.readWrap with
      | .wrap => Memory.read d.mem ((o.toNat + k) % p.cap)
      | .any => Config.freeReadByte t k

/-- R59, R62: the bytes of an Ok read; under a write cycle all are draws. -/
def Device.readBytes (p : Params) (t n : Nat) (d : Device) : List Byte :=
  (List.range n).map fun k => if d.wcp then Config.freeReadByte t k else d.readByte p t k

/-- R59, R61, R62: the device after a read transaction, Ok or not. -/
def Device.afterRead (cap t : Nat) (d : Device) : Device :=
  if d.wcp then d.havoc cap t else { d with ptr := none }

end Sys2Proof.Machine
end

