-- ==== Sys2Proof/Machine/Channel.lean ====
section
/-! DEFINITION. The two transactions of the I2C channel (spec/40_i2c_channel.md R120 to R122). Each takes one draw,
changes the addressed device only (R78), appends one event to HIST and leaves the transceiver in IDLE (R131). -/

namespace Sys2Proof.Machine

/-- R121, R62: the draw makes the transaction succeed with this device. -/
def drawSucceeds (x : TxDraw) (d : Device) : Bool := if d.wcp then x.okInHazard else x.ok

/-- R121: the outcome of a write transaction. -/
def writeOutcome (x : TxDraw) : Option Device → WriteOutcome
  | none => .err x.cause
  | some d => if drawSucceeds x d then .ok else .err x.cause

/-- R121: the outcome of a read transaction of `n` bytes. -/
def readOutcome (p : Params) (t n : Nat) (x : TxDraw) : Option Device → ReadOutcome
  | none => .err x.cause
  | some d => if drawSucceeds x d then .ok (d.readBytes p t n) else .err x.cause

/-- R78, R122: the end of a transaction with `a`: its device effect and its event. -/
def completeTx (a : Addr7) (f : Device → Device) (e : Event) (s : State) : State :=
  { s with
    dev := adjustKey a.toNat f s.dev
    hist := s.hist ++ [e]
    fsm := .idle
    chan := s.chan.tail
    tx := s.tx + 1 }

/-- `I2CWrite(a, bs)`. -/
def i2cWrite (a : Addr7) (bs : List Byte) (s : State) : WriteOutcome × State :=
  let r := writeOutcome (s.draw 0) (s.device a)
  (r, completeTx a (Device.afterWrite s.cfg.cap s.tx bs r) (.txW a bs r) s)

/-- `I2CRead(a, n)`. -/
def i2cRead (a : Addr7) (n : Nat) (s : State) : ReadOutcome × State :=
  let r := readOutcome s.cfg s.tx n (s.draw 0) (s.device a)
  (r, completeTx a (Device.afterRead s.cfg.cap s.tx) (.txR a n r) s)

end Sys2Proof.Machine
end

