-- ==== Sys2Proof/Machine/I2cCommands.lean ====
section
/-! DEFINITION. The two raw channel commands (spec/40_i2c_channel.md R123, R124). -/

namespace Sys2Proof.Machine

/-- R16, R27: a command whose last act is a read transaction emits its bytes, or raises its failure with no data. -/
def finishRead (r : ReadOutcome × State) : Result :=
  match r with
  | (.ok bs, t) => finish bs t
  | (.err c, t) => raise (.io c) t

/-- R123: I2C_WRITE. -/
def execI2cWrite (a : Byte) (d : List Byte) (s : State) : Result :=
  if addrReserved a then raise (.illegal .rsvd) s
  else if badLength s.cfg d.length then raise (.cfg .length) s
  else
    match i2cWrite (busAddr a) d s with
    | (.ok, t) => finish [] t
    | (.err c, t) => raise (.io c) t

/-- R124: I2C_READ. -/
def execI2cRead (a : Byte) (n : Count) (s : State) : Result :=
  if addrReserved a then raise (.illegal .rsvd) s
  else if badLength s.cfg n.toNat then raise (.cfg .length) s
  else finishRead (i2cRead (busAddr a) n.toNat s)

end Sys2Proof.Machine
end

