-- ==== Sys2Proof/Machine/EepromCommands.lean ====
section
/-! DEFINITION. The EEPROM access sequencer and the write-cycle wait (spec/41_eeprom_access.md R150 to R160). -/

namespace Sys2Proof.Machine

/-- R152: EE_READ. The control write and the read are two transactions (R136). -/
def execEeRead (a : Byte) (off : Off8) (n : Count) (s : State) : Result :=
  if addrReserved a then raise (.illegal .rsvd) s
  else if badLength s.cfg n.toNat then raise (.cfg .length) s
  else if pastCapacity s.cfg off n.toNat then raise (.cfg .capacity) s
  else
    match i2cWrite (busAddr a) [off] s with
    | (.ok, t) => finishRead (i2cRead (busAddr a) n.toNat t)
    | (.err c, t) => raise (.io c) t

/-- R156: the paced writes of the bytes `d` from offset `o` on. It ends at the first failing transaction, without a
Delay after it. -/
def eeWriteLoop (a : Addr7) (o : Nat) (d : List Byte) (s : State) : WriteOutcome × State :=
  match d with
  | [] => (.ok, s)
  | v :: vs =>
    match i2cWrite a [offsetByte o, v] s with
    | (.ok, t) => eeWriteLoop a (o + 1) vs (waitWriteCycle t)
    | (.err c, t) => (.err c, t)

/-- R156: EE_WRITE. -/
def execEeWrite (a : Byte) (off : Off8) (d : List Byte) (s : State) : Result :=
  if addrReserved a then raise (.illegal .rsvd) s
  else if pastCapacity s.cfg off d.length then raise (.cfg .capacity) s
  else
    match eeWriteLoop (busAddr a) off.toNat d s with
    | (.ok, t) => finish [] t
    | (.err c, t) => raise (.io c) t

/-- R160: WAIT_WC. -/
def execWaitWc (s : State) : Result := finish [] (waitWriteCycle s)

end Sys2Proof.Machine
end

