-- ==== Sys2Proof/Syntax.lean ====
section
/-! DEFINITION. The ten commands of spec/opcode_table.json, with the operand fields of spec/30_encoding.md R91. The
fields A and D8 are whole bytes: their reserved bits (R102) are checked by the command itself, as its pseudocode says
(R104; DESIGN CHOICE, safe, notes/assumptions/17.md). -/

namespace Sys2Proof

/-- One command: one constructor per row of the opcode table (R98). -/
inductive Instr where
  /-- R184. -/
  | crcInit
  /-- R185: field D8. -/
  | crcBit (d8 : Byte)
  /-- R186: field D8. -/
  | crcByte (d8 : Byte)
  /-- R187. -/
  | crcRead
  /-- R188: payload D. -/
  | crcMsg (d : List Byte)
  /-- R123: field A, payload D. -/
  | i2cWrite (a : Byte) (d : List Byte)
  /-- R124: field A, count N. -/
  | i2cRead (a : Byte) (n : Count)
  /-- R152: field A, field OFF, count N. -/
  | eeRead (a : Byte) (off : Off8) (n : Count)
  /-- R156: field A, field OFF, payload D. -/
  | eeWrite (a : Byte) (off : Off8) (d : List Byte)
  /-- R160. -/
  | waitWc
  deriving DecidableEq, Repr

end Sys2Proof
end

