-- ==== Sys2Proof/Machine/Dispatch.lean ====
section
/-! DEFINITION. One arm per command, in the order of spec/opcode_table.json. -/

namespace Sys2Proof.Machine

def exec (i : Instr) (s : State) : Host.Outcome State Fault Refusal :=
  match i with
  | .crcInit => Sys2Proof.Machine.execCrcInit s
  | .crcBit d8 => Sys2Proof.Machine.execCrcBit d8 s
  | .crcByte d8 => Sys2Proof.Machine.execCrcByte d8 s
  | .crcRead => Sys2Proof.Machine.execCrcRead s
  | .crcMsg d => Sys2Proof.Machine.execCrcMsg d s
  | .i2cWrite a d => Sys2Proof.Machine.execI2cWrite a d s
  | .i2cRead a n => Sys2Proof.Machine.execI2cRead a n s
  | .eeRead a off n => Sys2Proof.Machine.execEeRead a off n s
  | .eeWrite a off d => Sys2Proof.Machine.execEeWrite a off d s
  | .waitWc => Sys2Proof.Machine.execWaitWc s

end Sys2Proof.Machine
end

