-- ==== Sys2Proof/Decode.lean ====
section
/-! DEFINITION. The decoder and the encoder of command frames (spec/30_encoding.md R90 to R105). The decoder reads one
frame from the head of the host's byte stream and is total: an unassigned opcode and an incomplete frame have answers
of their own. -/

namespace Sys2Proof

/-- The assigned opcodes of R98. -/
inductive Opcode where
  | crcInit | crcBit | crcByte | crcRead | crcMsg | i2cWrite | i2cRead | eeRead | eeWrite | waitWc
  deriving DecidableEq, Repr

/-- The seven frame formats of R91. -/
inductive Format where
  | z | b | m | w | r | er | ew
  deriving DecidableEq, Repr

/-- R98: the opcode byte, group in bits 7 to 4 and function in bits 3 to 0. -/
def Opcode.byte : Opcode → Byte
  | .crcInit => 0x01#8
  | .crcBit => 0x02#8
  | .crcByte => 0x03#8
  | .crcRead => 0x04#8
  | .crcMsg => 0x05#8
  | .i2cWrite => 0x10#8
  | .i2cRead => 0x11#8
  | .eeRead => 0x20#8
  | .eeWrite => 0x21#8
  | .waitWc => 0x30#8

/-- R98: the format of each opcode's frames. -/
def Opcode.format : Opcode → Format
  | .crcInit => .z
  | .crcBit => .b
  | .crcByte => .b
  | .crcRead => .z
  | .crcMsg => .m
  | .i2cWrite => .w
  | .i2cRead => .r
  | .eeRead => .er
  | .eeWrite => .ew
  | .waitWc => .z

/-- Every assigned opcode, in the order of R98. -/
def Opcode.all : List Opcode :=
  [.crcInit, .crcBit, .crcByte, .crcRead, .crcMsg, .i2cWrite, .i2cRead, .eeRead, .eeWrite, .waitWc]

/-- R98, R99: the assigned opcode with this byte (compared under mask 0xFF), or none. -/
def Opcode.ofByte (op : Byte) : Option Opcode :=
  Opcode.all.find? fun o => o.byte == op

/-- R92: the count field N = NH, NL, big-endian. -/
def countOf (nh nl : Byte) : Count := nh ++ nl

/-- What the decoder finds at the head of the stream. -/
inductive Decoded where
  /-- A complete frame of an assigned opcode, and the bytes after it. -/
  | instr (i : Instr) (rest : List Byte)
  /-- R103: an unassigned opcode, one byte long, and the bytes after it. -/
  | badOp (op : Byte) (rest : List Byte)
  /-- R105: the stream ends before the frame is complete. -/
  | incomplete
  deriving DecidableEq, Repr

/-- R96, R101: the N payload bytes after the fixed fields, taken verbatim. -/
def withPayload (n : Count) (bs : List Byte) (mk : List Byte → Instr) : Decoded :=
  if n.toNat ≤ bs.length then .instr (mk (bs.take n.toNat)) (bs.drop n.toNat) else .incomplete

/-- The fields after the opcode byte (R91), in the order of R101. -/
def decodeFields (o : Opcode) (bs : List Byte) : Decoded :=
  match o with
  | .crcInit => .instr .crcInit bs
  | .crcRead => .instr .crcRead bs
  | .waitWc => .instr .waitWc bs
  | .crcBit =>
    match bs with
    | d8 :: rest => .instr (.crcBit d8) rest
    | _ => .incomplete
  | .crcByte =>
    match bs with
    | d8 :: rest => .instr (.crcByte d8) rest
    | _ => .incomplete
  | .crcMsg =>
    match bs with
    | nh :: nl :: rest => withPayload (countOf nh nl) rest .crcMsg
    | _ => .incomplete
  | .i2cWrite =>
    match bs with
    | a :: nh :: nl :: rest => withPayload (countOf nh nl) rest (.i2cWrite a)
    | _ => .incomplete
  | .i2cRead =>
    match bs with
    | a :: nh :: nl :: rest => .instr (.i2cRead a (countOf nh nl)) rest
    | _ => .incomplete
  | .eeRead =>
    match bs with
    | a :: off :: nh :: nl :: rest => .instr (.eeRead a off (countOf nh nl)) rest
    | _ => .incomplete
  | .eeWrite =>
    match bs with
    | a :: off :: nh :: nl :: rest => withPayload (countOf nh nl) rest (.eeWrite a off)
    | _ => .incomplete

/-- R101: one frame from the head of the stream. -/
def decode : List Byte → Decoded
  | [] => .incomplete
  | op :: bs =>
    match Opcode.ofByte op with
    | none => .badOp op bs
    | some o => decodeFields o bs

/-- R100: the length of a frame from its opcode and its count field; none while the bytes that fix it are missing. -/
def frameLength : List Byte → Option Nat
  | [] => none
  | op :: bs =>
    match (Opcode.ofByte op).map Opcode.format with
    | none => some 1
    | some .z => some 1
    | some .b => some 2
    | some .r => some 4
    | some .er => some 5
    | some .m =>
      match bs with
      | nh :: nl :: _ => some (3 + (countOf nh nl).toNat)
      | _ => none
    | some .w =>
      match bs with
      | _ :: nh :: nl :: _ => some (4 + (countOf nh nl).toNat)
      | _ => none
    | some .ew =>
      match bs with
      | _ :: _ :: nh :: nl :: _ => some (5 + (countOf nh nl).toNat)
      | _ => none

/-- R92: NH and NL of a count. -/
def countBytes (n : Count) : List Byte := [n.extractLsb' 8 8, n.extractLsb' 0 8]

/-- R92: the count field of a payload. -/
def lengthBytes (d : List Byte) : List Byte := countBytes (BitVec.ofNat 16 d.length)

/-- R91, R106: the frame of a command. -/
def encode : Instr → List Byte
  | .crcInit => [0x01#8]
  | .crcBit d8 => [0x02#8, d8]
  | .crcByte d8 => [0x03#8, d8]
  | .crcRead => [0x04#8]
  | .crcMsg d => 0x05#8 :: (lengthBytes d ++ d)
  | .i2cWrite a d => 0x10#8 :: a :: (lengthBytes d ++ d)
  | .i2cRead a n => 0x11#8 :: a :: countBytes n
  | .eeRead a off n => 0x20#8 :: a :: off :: countBytes n
  | .eeWrite a off d => 0x21#8 :: a :: off :: (lengthBytes d ++ d)
  | .waitWc => [0x30#8]

/-- The bytes of a row's number `w`, the first byte of the frame in its low eight bits. -/
def wordBytes (nbits w : Nat) : List Byte :=
  (List.range ((nbits + 7) / 8)).map fun k => BitVec.ofNat 8 (w >>> (8 * k))

/-- The whole frame whose first bits are `w` and whose other bits are zero (the longest fixed part has 5 bytes). -/
def tableFrame (nbits w : Nat) : List Byte :=
  let given := wordBytes nbits w
  let padded := given ++ List.replicate 5 0x00#8
  given ++ List.replicate ((frameLength padded).getD 1 - given.length) 0x00#8

/-- What the decoder reads from the frame whose first bits are `w`. -/
def decodeTableWord (nbits w : Nat) : Option Instr :=
  match decode (tableFrame nbits w) with
  | .instr i _ => some i
  | .badOp _ _ => none
  | .incomplete => none

end Sys2Proof
end

