-- ==== Sys2Proof/Machine/Fetch.lean ====
section
/-! DEFINITION. What comes to the block from the host: the next frame (spec/30_encoding.md R90, R101, R103, R105), the
host's acts between two commands (spec/70_reset_and_hazards.md R270, R278), and a frame placed for a test. -/

namespace Sys2Proof.Machine

/-- The stream after a frame has been taken from it. -/
def State.withStream (s : State) (bs : List Byte) : State := { s with stream := bs }

/-- What stands at the head of the host's input. -/
inductive Fetched where
  /-- A complete frame, and the state with it taken. -/
  | frame (i : Instr) (s : State)
  /-- An unassigned opcode, and the state with it taken. -/
  | unassigned (s : State)
  /-- Part of a frame. -/
  | partialFrame
  /-- No byte before the host's next act. -/
  | noFrame

/-- Take the next frame from the host. -/
def fetch (s : State) : Fetched :=
  if s.stream = [] then .noFrame
  else
    match decode s.stream with
    | .instr i rest => .frame i (s.withStream rest)
    | .badOp _ rest => .unassigned (s.withStream rest)
    | .incomplete => .partialFrame

/-- R103: an unassigned opcode. -/
def execUnassigned (s : State) : Result := raise (.illegal .badOp) s

/-- The host acts between two commands. A swap changes DEV at one address only (R278). -/
def hostAct (act : HostAct) (s : State) : State :=
  match act with
  | .swap a d => { s with dev := swapDevice a d s.dev }
  | .reset => resetBlock s

/-- The host still sends a frame after one of these acts. -/
def framesLeft (ps : List Phase) : Bool := ps.any fun p => !p.stream.isEmpty

/-- The host's turn: its next act and the bytes after it while a frame is still to come (cmd < k), or the end of the run
(R29, R36: cmd = k). An act behind the last frame stands between no two commands (R278) and is not done. DESIGN CHOICE,
safe, notes/assumptions/22.md: an act before the first frame, and a second act right after the first, is done. -/
def hostTurn (s : State) : Result :=
  match s.phases with
  | [] => .fault .runEnded
  | p :: ps =>
    if framesLeft (p :: ps) then .next { hostAct p.act s with stream := p.stream, phases := ps }
    else .fault .runEnded

/-- The host delivers a frame next, before whatever else it sends. -/
def State.deliver (s : State) (frame : List Byte) : State := { s with stream := frame ++ s.stream }

end Sys2Proof.Machine
end

