-- ==== Sys2Proof/Machine/Step.lean ====
section
/-! DEFINITION. One step: the next frame as one atomic command (spec/00_scope.md R6, spec/10_state.md R29), or one act
of the host between two commands (log 3). -/

namespace Sys2Proof.Machine

/-- The three outcomes of a step. A complete frame gives a next state; part of a frame is stuck (R105). -/
def step (s : State) : Host.Outcome State Fault Refusal :=
  match fetch s with
  | .frame i t => exec i t
  | .unassigned t => execUnassigned t
  | .partialFrame => .fault .incompleteFrame
  | .noFrame => hostTurn s

/-- The state in which the host delivers the table row's frame next (log 19). -/
def State.withFetchWord (s : State) (nbits w : Nat) : State := s.deliver (tableFrame nbits w)

end Sys2Proof.Machine
end

