-- ==== Sys2Proof/Machine/HeaderDecode.lean ====
section
/-! DEFINITION. The host's header decoder (spec/43_header_decode.md R210 to R221, layout of spec/20_memory.md R69): a
pure function of an image. It is no command of the block (R3) and reads no state. -/

namespace Sys2Proof.Machine

/-- R69: the ten fields, in table order. -/
inductive HeaderField where
  | serialNumberRaw | serialNumberAscii | productIdRaw | productIdAscii | bomVersion | pcbVersion | fixtureVersion
  | crc5FixtureHeader | crc5CgminerHeader | crc5ClassInfo
  deriving DecidableEq, Repr

/-- R69, R211: where the field's bytes start. -/
def HeaderField.first : HeaderField → Nat
  | .serialNumberRaw => 4
  | .serialNumberAscii => 4
  | .productIdRaw => 21
  | .productIdAscii => 21
  | .bomVersion => 25
  | .pcbVersion => 27
  | .fixtureVersion => 29
  | .crc5FixtureHeader => 0
  | .crc5CgminerHeader => 4
  | .crc5ClassInfo => 64

/-- R69, R211: one past the field's last byte. -/
def HeaderField.last : HeaderField → Nat
  | .serialNumberRaw => 21
  | .serialNumberAscii => 21
  | .productIdRaw => 25
  | .productIdAscii => 25
  | .bomVersion => 27
  | .pcbVersion => 29
  | .fixtureVersion => 31
  | .crc5FixtureHeader => 4
  | .crc5CgminerHeader => 64
  | .crc5ClassInfo => 128

/-- R69: the fields in table order. -/
def HeaderField.all : List HeaderField :=
  [.serialNumberRaw, .serialNumberAscii, .productIdRaw, .productIdAscii, .bomVersion, .pcbVersion, .fixtureVersion,
    .crc5FixtureHeader, .crc5CgminerHeader, .crc5ClassInfo]

/-- The bytes `[first, last)` of an image. -/
def imageSlice (image : List Byte) (first last : Nat) : List Byte := (image.drop first).take (last - first)

/-- R69: the bytes of a field. -/
def HeaderField.bytes (f : HeaderField) (image : List Byte) : List Byte := imageSlice image f.first f.last

/-- R211: the field's range lies inside the image. -/
def HeaderField.present (f : HeaderField) (image : List Byte) : Bool := decide (f.last ≤ image.length)

/-- R214: printable ASCII, or `?`. -/
def asciiOf (b : Byte) : Char := if 32 ≤ b.toNat ∧ b.toNat ≤ 126 then Char.ofNat b.toNat else '?'

/-- R215: two consecutive bytes, high byte first. -/
def bigEndian : List Byte → BitVec 16
  | [hi, lo] => hi ++ lo
  | _ => 0

/-- R13, R216: one hexadecimal digit. -/
def hexDigit (hc : HexCase) (d : BitVec 4) : Char :=
  if d.toNat < 10 then Char.ofNat (48 + d.toNat)
  else
    match hc with
    | .lower => Char.ofNat (87 + d.toNat)
    | .upper => Char.ofNat (55 + d.toNat)

/-- R216: bom_version as four hexadecimal digits, most significant first. -/
def renderBom (hc : HexCase) (v : BitVec 16) : List Char :=
  [hexDigit hc (v.extractLsb' 12 4), hexDigit hc (v.extractLsb' 8 4), hexDigit hc (v.extractLsb' 4 4),
    hexDigit hc (v.extractLsb' 0 4)]

/-- R69: what a decode gives for each field; none where the field is omitted (R211). `bomVersionText` is no eleventh
field: it is how the record shows the field bom_version (R216). -/
structure DecodedRecord where
  serialNumberRaw : Option (List Byte)
  serialNumberAscii : Option (List Char)
  productIdRaw : Option (List Byte)
  productIdAscii : Option (List Char)
  bomVersion : Option (BitVec 16)
  bomVersionText : Option (List Char)
  pcbVersion : Option (BitVec 16)
  fixtureVersion : Option (BitVec 16)
  crc5FixtureHeader : Option Crc
  crc5CgminerHeader : Option Crc
  crc5ClassInfo : Option Crc
  deriving DecidableEq, Repr

/-- R211: a field is decoded from its whole range or omitted. -/
def decodeField {α : Type} (image : List Byte) (f : HeaderField) (value : List Byte → α) : Option α :=
  if f.present image then some (value (f.bytes image)) else none

/-- R211, R213 to R217: the record. The launch's HEX_CASE fixes the case of the rendered bom_version (R13). -/
def decodeRecord (p : Params) (image : List Byte) : DecodedRecord where
  serialNumberRaw := decodeField image .serialNumberRaw id
  serialNumberAscii := decodeField image .serialNumberAscii (List.map asciiOf)
  productIdRaw := decodeField image .productIdRaw id
  productIdAscii := decodeField image .productIdAscii (List.map asciiOf)
  bomVersion := decodeField image .bomVersion bigEndian
  bomVersionText := decodeField image .bomVersion fun bs => renderBom p.hexCase (bigEndian bs)
  pcbVersion := decodeField image .pcbVersion bigEndian
  fixtureVersion := decodeField image .fixtureVersion bigEndian
  crc5FixtureHeader := decodeField image .crc5FixtureHeader (crc5 p)
  crc5CgminerHeader := decodeField image .crc5CgminerHeader (crc5 p)
  crc5ClassInfo := decodeField image .crc5ClassInfo (crc5 p)

/-- R212: the omitted fields, in table order. -/
def skippedFields (image : List Byte) : List HeaderField := HeaderField.all.filter fun f => !f.present image

/-- R210: `decode`. -/
def decodeHeader (p : Params) (image : List Byte) : DecodedRecord × List HeaderField :=
  (decodeRecord p image, skippedFields image)

end Sys2Proof.Machine
end

