-- ==== Sys2Proof/Machine/Assembler.lean ====
section
/-! DEFINITION. The assembler and its pseudo-instructions (spec/30_encoding.md R106, R107), from written operands to
frames and from text to written operands (notes/assumptions/18.md on what R106 leaves open in the text). -/

namespace Sys2Proof.Machine

/-- R106: one line with its operands as numbers. -/
inductive AsmLine where
  | crcInit
  | crcBit (b : Nat)
  | crcByte (d : Nat)
  | crcRead
  | crcMsg (ds : List Nat)
  | i2cWrite (a : Nat) (ds : List Nat)
  | i2cRead (a n : Nat)
  | eeRead (a off n : Nat)
  | eeWrite (a off : Nat) (ds : List Nat)
  | waitWc
  deriving DecidableEq, Repr

/-- The value, if it is below the bound. -/
def below (bound n : Nat) : Option Nat := if n < bound then some n else none

/-- A byte operand (log 18: a larger number is rejected). -/
def asmByte (n : Nat) : Option Byte := (below 256 n).map (BitVec.ofNat 8)

/-- R106: `a > 0x7F` is rejected. -/
def asmAddr (n : Nat) : Option Byte := (below 128 n).map (BitVec.ofNat 8)

/-- R106: `n > 65535` is rejected. -/
def asmCount (n : Nat) : Option Count := (below 65536 n).map (BitVec.ofNat 16)

/-- R106: a list longer than 65535 bytes is rejected. -/
def asmBytes (ds : List Nat) : Option (List Byte) :=
  if ds.length < 65536 then ds.mapM asmByte else none

/-- R106: the command of a line, or none where the assembler rejects it. -/
def assemble : AsmLine → Option Instr
  | .crcInit => some .crcInit
  | .crcBit b => (below 2 b).map fun b => .crcBit (BitVec.ofNat 8 b)
  | .crcByte d => (asmByte d).map .crcByte
  | .crcRead => some .crcRead
  | .crcMsg ds => (asmBytes ds).map .crcMsg
  | .i2cWrite a ds => (asmAddr a).bind fun a => (asmBytes ds).map (.i2cWrite a)
  | .i2cRead a n => (asmAddr a).bind fun a => (asmCount n).map (.i2cRead a)
  | .eeRead a off n =>
    (asmAddr a).bind fun a => (asmByte off).bind fun off => (asmCount n).map (.eeRead a off)
  | .eeWrite a off ds =>
    (asmAddr a).bind fun a => (asmByte off).bind fun off => (asmBytes ds).map (.eeWrite a off)
  | .waitWc => some .waitWc

/-- R107: the pseudo-instructions; the last three take their bytes from an image the host holds. -/
inductive Pseudo where
  | setPtr (a off : Nat)
  | poke (a off d : Nat)
  | crcBytes (ds : List Nat)
  | hdrCrcFixture (image : List Byte)
  | hdrCrcCgminer (image : List Byte)
  | hdrCrcClass (image : List Byte)
  deriving DecidableEq, Repr

/-- R107: one CRC_MSG over a whole range of the image. -/
def hdrCrc (f : HeaderField) (image : List Byte) : Option (List AsmLine) :=
  if f.present image then some [.crcMsg ((f.bytes image).map BitVec.toNat)] else none

/-- R107: the expansion. DESIGN CHOICE, safe, notes/assumptions/18.md: a CRC_BYTES list has no longest length, because it
fills no count field, and an empty one gives no command. -/
def expand : Pseudo → Option (List AsmLine)
  | .setPtr a off => some [.i2cWrite a [off]]
  | .poke a off d => some [.i2cWrite a [off, d], .waitWc]
  | .crcBytes ds => some (ds.map .crcByte)
  | .hdrCrcFixture image => hdrCrc .crc5FixtureHeader image
  | .hdrCrcCgminer image => hdrCrc .crc5CgminerHeader image
  | .hdrCrcClass image => hdrCrc .crc5ClassInfo image

/-- The commands of a list of lines. -/
def assembleLines (ls : List AsmLine) : Option (List Instr) := ls.mapM assemble

/-- The stream of a list of commands (R90). -/
def streamOf (is : List Instr) : List Byte := is.flatMap encode

/-! ### The text (R106) -/

/-- The pieces of a line. -/
inductive Token where
  | word (cs : List Char)
  | comma
  | openList
  | closeList
  deriving DecidableEq, Repr

/-- A character of a mnemonic or of a number. -/
def wordChar (c : Char) : Bool := c.isAlphanum || c == '_'

/-- Put the word read so far (its last character first) before the tokens after it. -/
def flushWord (acc : List Char) (ts : List Token) : List Token :=
  if acc = [] then ts else .word acc.reverse :: ts

/-- Cut a line into tokens; none at a character that no line holds. -/
def tokens : List Char → List Char → Option (List Token)
  | acc, [] => some (flushWord acc [])
  | acc, c :: cs =>
    if wordChar c then tokens (c :: acc) cs
    else if c = ' ' then (tokens [] cs).map (flushWord acc)
    else if c = ',' then (tokens [] cs).map fun ts => flushWord acc (.comma :: ts)
    else if c = '[' then (tokens [] cs).map fun ts => flushWord acc (.openList :: ts)
    else if c = ']' then (tokens [] cs).map fun ts => flushWord acc (.closeList :: ts)
    else none

/-- The value of a digit in a base. -/
def digitValue (base : Nat) (c : Char) : Option Nat :=
  let n := c.toNat
  let v :=
    if 48 ≤ n ∧ n ≤ 57 then n - 48
    else if 65 ≤ n ∧ n ≤ 70 then n - 55
    else if 97 ≤ n ∧ n ≤ 102 then n - 87
    else base
  below base v

/-- The number that digits write. -/
def digitsValue (base : Nat) : Nat → List Char → Option Nat
  | acc, [] => some acc
  | acc, c :: cs => (digitValue base c).bind fun d => digitsValue base (base * acc + d) cs

/-- R106: decimal, or hexadecimal after `0x`. -/
def numberOf : List Char → Option Nat
  | [] => none
  | ['0', 'x'] => none
  | '0' :: 'x' :: cs => digitsValue 16 0 cs
  | cs => digitsValue 10 0 cs

/-- The items of a list up to its closing bracket. -/
def listItems : List Token → Option (List Nat)
  | [.word w, .closeList] => (numberOf w).map fun n => [n]
  | .word w :: .comma :: ts => (numberOf w).bind fun n => (listItems ts).map (n :: ·)
  | _ => none

/-- R106: a byte list. -/
def listOf : List Token → Option (List Nat)
  | [.openList, .closeList] => some []
  | .openList :: ts => listItems ts
  | _ => none

/-- The numbers of the operands before the last comma, and the tokens of the last operand. -/
def operandsOf : List Token → Option (List Nat × List Token)
  | .word w :: .comma :: ts =>
    (numberOf w).bind fun n => (operandsOf ts).map fun r => (n :: r.1, r.2)
  | ts => some ([], ts)

/-- All operands as numbers. -/
def numbersOf (ts : List Token) : Option (List Nat) :=
  match operandsOf ts with
  | some (ns, [.word w]) => (numberOf w).map fun n => ns ++ [n]
  | _ => none

/-- Leading numbers and a final list. -/
def numbersAndList (ts : List Token) : Option (List Nat × List Nat) :=
  match operandsOf ts with
  | some (ns, ts) => (listOf ts).map fun ds => (ns, ds)
  | none => none

/-- One line of text as the assembler's lines: a command is one, a pseudo-instruction its expansion. `image` is the image
the host holds (R107). -/
def parseWords (image : List Byte) (m : List Char) (ts : List Token) : Option (List AsmLine) :=
  if m = "CRC_INIT".toList then if ts = [] then some [.crcInit] else none
  else if m = "CRC_READ".toList then if ts = [] then some [.crcRead] else none
  else if m = "WAIT_WC".toList then if ts = [] then some [.waitWc] else none
  else if m = "CRC_BIT".toList then
    match numbersOf ts with
    | some [b] => some [.crcBit b]
    | _ => none
  else if m = "CRC_BYTE".toList then
    match numbersOf ts with
    | some [d] => some [.crcByte d]
    | _ => none
  else if m = "I2C_READ".toList then
    match numbersOf ts with
    | some [a, n] => some [.i2cRead a n]
    | _ => none
  else if m = "EE_READ".toList then
    match numbersOf ts with
    | some [a, off, n] => some [.eeRead a off n]
    | _ => none
  else if m = "SET_PTR".toList then
    match numbersOf ts with
    | some [a, off] => expand (.setPtr a off)
    | _ => none
  else if m = "POKE".toList then
    match numbersOf ts with
    | some [a, off, d] => expand (.poke a off d)
    | _ => none
  else if m = "CRC_MSG".toList then
    match numbersAndList ts with
    | some ([], ds) => some [.crcMsg ds]
    | _ => none
  else if m = "I2C_WRITE".toList then
    match numbersAndList ts with
    | some ([a], ds) => some [.i2cWrite a ds]
    | _ => none
  else if m = "EE_WRITE".toList then
    match numbersAndList ts with
    | some ([a, off], ds) => some [.eeWrite a off ds]
    | _ => none
  else if m = "CRC_BYTES".toList then
    match numbersAndList ts with
    | some ([], ds) => expand (.crcBytes ds)
    | _ => none
  else if m = "HDR_CRC_FIXTURE".toList then if ts = [] then expand (.hdrCrcFixture image) else none
  else if m = "HDR_CRC_CGMINER".toList then if ts = [] then expand (.hdrCrcCgminer image) else none
  else if m = "HDR_CRC_CLASS".toList then if ts = [] then expand (.hdrCrcClass image) else none
  else none

/-- R106: one line of text. -/
def parseLine (image : List Byte) (line : List Char) : Option (List AsmLine) :=
  match tokens [] line with
  | some (.word m :: ts) => parseWords image m ts
  | _ => none

/-- R106: the stream of a text, one line a command. -/
def assembleText (image : List Byte) (ls : List (List Char)) : Option (List Byte) :=
  (ls.mapM (parseLine image)).bind fun ls => (assembleLines ls.flatten).map streamOf

end Sys2Proof.Machine
end

