-- ==== Sys2Proof/Machine/Transceiver.lean ====
section
/-! DEFINITION. One transaction as byte events (spec/40_i2c_channel.md R130 to R135): the transceiver's state machine
with its private read buffer, the bus as it looks from outside, and what the device at the other end lets happen. The
transactions of Machine/Channel.lean govern it (R135; notes/assumptions/10.md). -/

namespace Sys2Proof.Machine

/-- The transaction being performed (R120). -/
inductive Tx where
  | write (a : Addr7) (bs : List Byte)
  | read (a : Addr7) (n : Nat)
  deriving DecidableEq, Repr

/-- The events of R131's table. -/
inductive BusEvent where
  /-- The transaction is issued. -/
  | issue
  /-- The receiver acknowledges the byte the controller sent. -/
  | ack
  /-- The receiver does not; `absent` is the draw of R134 for the address byte. -/
  | nack (absent : Bool)
  /-- A byte is received. -/
  | byteIn (b : Byte)
  | timeout
  | arbLost
  /-- R134: any other controller fault (DEDUCED: it ends in STOP as a timeout does, log 10). -/
  | controllerFault
  /-- STOP has been driven. -/
  | stopDone
  deriving DecidableEq, Repr

/-- What stands on the bus (R130). -/
inductive Wire where
  | start
  | byte (b : Byte)
  | ack
  | nack
  | stop
  deriving DecidableEq, Repr

/-- The outcome of a transaction, with the bytes of an Ok read (an Ok write has none). -/
inductive BusOutcome where
  | ok (bs : List Byte)
  | err (c : Cause)
  deriving DecidableEq, Repr

/-- The transceiver inside a transaction. -/
structure FsmRun where
  state : Fsm
  /-- R131, R132: the private read buffer. -/
  buffer : List Byte
  outcome : Option BusOutcome
  wire : List Wire
  deriving DecidableEq, Repr

/-- R131: in IDLE between transactions. -/
def FsmRun.start : FsmRun where
  state := .idle
  buffer := []
  outcome := none
  wire := []

/-- R130: the address byte `{a[6:0], rw}`. -/
def addressByte : Tx → Byte
  | .write a _ => a ++ 0#1
  | .read a _ => a ++ 1#1

/-- R131: to STOP with an outcome, after these symbols on the bus. -/
def FsmRun.toStop (r : FsmRun) (w : List Wire) (o : BusOutcome) : FsmRun :=
  { r with state := .stop, outcome := some o, wire := r.wire ++ w }

/-- R131: to another state of the transaction, after these symbols on the bus. -/
def FsmRun.goTo (r : FsmRun) (st : Fsm) (w : List Wire) : FsmRun :=
  { r with state := st, wire := r.wire ++ w }

/-- R131: arbitration lost: to IDLE, no STOP driven. -/
def FsmRun.lose (r : FsmRun) : FsmRun :=
  { r with state := .idle, outcome := some (.err .arbLost) }

/-- R131: WDATA(i) sends `D[i]` and meets ACK. -/
def fsmWriteAck (tx : Tx) (r : FsmRun) (i : Nat) : Option FsmRun :=
  match tx with
  | .write _ bs =>
    match bs[i]? with
    | some d =>
      if i + 1 < bs.length then some (r.goTo (.wdata (i + 1)) [.byte d, .ack])
      else some (r.toStop [.byte d, .ack] (.ok []))
    | none => none
  | .read _ _ => none

/-- R131: WDATA(i) sends `D[i]` and meets NACK. -/
def fsmWriteNack (tx : Tx) (r : FsmRun) (i : Nat) : Option FsmRun :=
  match tx with
  | .write _ bs =>
    match bs[i]? with
    | some d => some (r.toStop [.byte d, .nack] (.err .nack))
    | none => none
  | .read _ _ => none

/-- R131: RDATA(i) receives a byte; the controller acknowledges all but the last. -/
def fsmReadByte (tx : Tx) (r : FsmRun) (i : Nat) (b : Byte) : Option FsmRun :=
  match tx with
  | .write _ _ => none
  | .read _ n =>
    if i + 1 < n then some { r.goTo (.rdata (i + 1)) [.byte b, .ack] with buffer := r.buffer ++ [b] }
    else if i + 1 = n then some (r.toStop [.byte b, .nack] (.ok (r.buffer ++ [b])))
    else none

/-- R131: ADDR meets ACK. -/
def fsmAddrAck (tx : Tx) (r : FsmRun) : Option FsmRun :=
  match tx with
  | .write _ bs => if bs = [] then none else some (r.goTo (.wdata 0) [.ack])
  | .read _ _ => some (r.goTo (.rdata 0) [.ack])

/-- R131: a transaction is issued in IDLE. -/
def fsmIssue (tx : Tx) (r : FsmRun) : FsmRun :=
  { r with state := .addr, buffer := [], outcome := none, wire := r.wire ++ [.start, .byte (addressByte tx)] }

/-- R131: the transitions that any state but IDLE has. -/
def fsmBusFault (r : FsmRun) (e : BusEvent) : Option FsmRun :=
  match e with
  | .timeout => some (r.toStop [] (.err .timeout))
  | .controllerFault => some (r.toStop [] (.err .unknown))
  | .arbLost => some r.lose
  | .issue => none
  | .ack => none
  | .nack _ => none
  | .byteIn _ => none
  | .stopDone => none

/-- R131: one transition, none where the table has no row. -/
def fsmStep (tx : Tx) (r : FsmRun) (e : BusEvent) : Option FsmRun :=
  match r.state with
  | .idle =>
    match e with
    | .issue => some (fsmIssue tx r)
    | _ => none
  | .addr =>
    match e with
    | .ack => fsmAddrAck tx r
    | .nack absent => some (r.toStop [.nack] (.err (if absent then .absent else .nack)))
    | e => fsmBusFault r e
  | .wdata i =>
    match e with
    | .ack => fsmWriteAck tx r i
    | .nack _ => fsmWriteNack tx r i
    | e => fsmBusFault r e
  | .rdata i =>
    match e with
    | .byteIn b => fsmReadByte tx r i b
    | e => fsmBusFault r e
  | .stop =>
    match e with
    | .stopDone => some (r.goTo .idle [.stop])
    | e => fsmBusFault r e

/-- A sequence of events. -/
def fsmSteps (tx : Tx) : List BusEvent → FsmRun → Option FsmRun
  | [], r => some r
  | e :: es, r => (fsmStep tx r e).bind (fsmSteps tx es)

/-- R131: a transaction that has completed with an outcome. -/
def FsmRun.completed (r : FsmRun) (o : BusOutcome) : Prop := r.state = .idle ∧ r.outcome = some o

/-- R131: the rows marked "outcome Ok". -/
def okRow (tx : Tx) (st : Fsm) (e : BusEvent) : Bool :=
  match tx, st, e with
  | .write _ bs, .wdata i, .ack => i + 1 == bs.length
  | .read _ n, .rdata i, .byteIn _ => i + 1 == n
  | _, _, _ => false

/-! ### The device at the other end -/

/-- The address of a transaction. -/
def Tx.address : Tx → Addr7
  | .write a _ => a
  | .read a _ => a

/-- R59, R60, R62: the bytes the addressed device returns to a read. -/
def Tx.replies (s : State) : Tx → List Byte
  | .write _ _ => []
  | .read a n =>
    match s.device a with
    | some d => d.readBytes s.cfg s.tx n
    | none => []

/-- What can happen on the bus with the devices of `s`: no device acknowledges an absent address (R121), and the bytes
received are the device's (R59). Everything else is the channel's draw. DEDUCED, safe, notes/assumptions/10.md. -/
def busAllows (s : State) (tx : Tx) (st : Fsm) (e : BusEvent) : Bool :=
  match st, e with
  | .addr, .ack => (s.device tx.address).isSome
  | .rdata i, .byteIn b => (tx.replies s)[i]? == some b
  | _, _ => true

/-- A sequence of events that can happen with the devices of `s`. -/
def busSteps (s : State) (tx : Tx) : List BusEvent → FsmRun → Option FsmRun
  | [], r => some r
  | e :: es, r => if busAllows s tx r.state e then (fsmStep tx r e).bind (busSteps s tx es) else none

/-! ### The transaction level -/

/-- The outcome of a write transaction, as the bus shows it. -/
def WriteOutcome.bus : WriteOutcome → BusOutcome
  | .ok => .ok []
  | .err c => .err c

/-- The outcome of a read transaction, as the bus shows it. -/
def ReadOutcome.bus : ReadOutcome → BusOutcome
  | .ok bs => .ok bs
  | .err c => .err c

/-- R120: the transaction as Machine/Channel.lean performs it. -/
def Tx.perform (s : State) : Tx → BusOutcome × State
  | .write a bs => ((i2cWrite a bs s).1.bus, (i2cWrite a bs s).2)
  | .read a n => ((i2cRead a n s).1.bus, (i2cRead a n s).2)

/-- R121: the transaction level admits the outcome in `s`: the transaction has it for some draw of the channel. -/
def Tx.admits (s : State) (tx : Tx) (o : BusOutcome) : Prop :=
  ∃ x : TxDraw, (tx.perform { s with chan := x :: s.chan }).1 = o

/-- The transaction is one that ETX issues: it carries at least one byte (R123, R124, R131). -/
def Tx.carries : Tx → Prop
  | .write _ bs => bs ≠ []
  | .read _ n => 0 < n

end Sys2Proof.Machine
end

