-- ==== Sys2Proof/WellFormed.lean ====
section
/-! DEFINITION. Which commands a frame can carry: the count field has 16 bits (spec/30_encoding.md R92), so a payload
has at most 65535 bytes. Nothing else is checked here: R97 leaves the limits on counts and offsets, and R104 the
reserved bits, to the command's execution. -/

namespace Sys2Proof

/-- R92, R96: a payload whose length fits the count field. -/
def payloadFits (d : List Byte) : Bool := decide (d.length ≤ 65535)

/-- The command has a frame. -/
def Instr.wellFormed : Instr → Bool
  | .crcInit => true
  | .crcBit _ => true
  | .crcByte _ => true
  | .crcRead => true
  | .crcMsg d => payloadFits d
  | .i2cWrite _ d => payloadFits d
  | .i2cRead _ _ => true
  | .eeRead _ _ _ => true
  | .eeWrite _ _ d => payloadFits d
  | .waitWc => true

end Sys2Proof
end

