-- ==== Sys2Proof/Safety.lean ====
section
/-! DEFINITION. The terms in which claims are stated: the launch premises (spec/70_reset_and_hazards.md R275, R276), the
invariant, what a run shows (spec/10_state.md R36), and short names for what a command reports and keeps. -/

namespace Sys2Proof.Safety

open Sys2Proof.Machine

/-! ### Launch premises -/

/-- R275 CleanEntry: a post-reset state with no event yet and every device at rest. -/
def CleanEntry (s : State) : Prop :=
  s.crc = s.cfg.init ∧ s.status = statusOk ∧ s.fsm = .idle ∧ s.cmd = 0 ∧ s.hist = [] ∧
    ∀ a d, s.device a = some d → d.wcp = false ∧ d.ptr = none

/-- R275 CapMatches: every present device holds exactly CAP bytes. A byte below CAP that its memory does not list reads
as Memory.unlisted (notes/assumptions/6.md), so what is left to say is that it lists none from CAP on. -/
def CapMatches (s : State) : Prop := ∀ a d, s.device a = some d → Memory.within s.cfg.cap d.mem

/-- R275 ImageKnown(a, M). -/
def ImageKnown (a : Addr7) (image : List Byte) (s : State) : Prop :=
  image.length = s.cfg.cap ∧ ∃ d, s.device a = some d ∧ ∀ o, o < s.cfg.cap → image[o]? = some (Memory.read d.mem o)

/-- R276 ChannelReliable, for the next `n` transactions: each to a present device at rest has outcome Ok. -/
abbrev ChannelReliable (n : Nat) (s : State) : Prop := ∀ k, k < n → (s.draw k).ok = true

/-- R282 (b): the premise of every claim that writes a device: T_WC is at least the device's own write-cycle time. -/
abbrev WriteCycleFits (p : Params) (d : Device) : Prop := d.cycle ≤ p.tWc

/-! ### The invariant -/

/-- R30, R31, R51: the device map in canonical form, each memory in canonical form inside CAP. -/
abbrev devicesWf (cap : Nat) (dev : List (Nat × Device)) : Prop :=
  keysRising dev ∧ ∀ e ∈ dev, e.1 < 128 ∧ Memory.wf cap e.2.mem

/-- The devices the host will swap in have memories in canonical form. -/
def phaseWf (cap : Nat) (p : Phase) : Prop :=
  match p.act with
  | .swap _ (some d) => Memory.wf cap d.mem
  | .swap _ none => True
  | .reset => True

/-- R25: the values STATUS can hold. -/
def legalStatus (st : Byte) : Bool :=
  [0x00#8, 0x01#8, 0x05#8, 0x09#8, 0x0D#8, 0x11#8, 0x02#8, 0x06#8, 0x03#8, 0x07#8].contains st

/-- R25, R27: a response has a legal status, and data only if the command ended OK. -/
def rspWf (r : Rsp) : Prop := legalStatus r.status = true ∧ (r.status ≠ 0x00#8 → r.data = [])

/-- The event is a transaction. -/
def isTx : Event → Bool
  | .txW _ _ _ => true
  | .txR _ _ _ => true
  | .delay => false

/-- What every step keeps. -/
structure Inv (s : State) : Prop where
  /-- R9, R11. -/
  params : s.cfg.wf
  devices : devicesWf s.cfg.cap s.dev
  swaps : ∀ p ∈ s.phases, phaseWf s.cfg.cap p
  /-- R25. -/
  status : legalStatus s.status = true
  /-- R131: in IDLE between transactions. -/
  transceiver : s.fsm = .idle
  /-- R27, R29: one response for each command. -/
  responses : s.rsps.length = s.cmd
  responsesWf : ∀ r ∈ s.rsps, rspWf r
  /-- R122: one event for each transaction, so each free value is drawn afresh. -/
  transactions : s.hist.countP isTx = s.tx

/-! ### Runs -/

/-- R36: what a run that has ended shows. -/
structure Observation where
  rsps : List Rsp
  crc : Crc
  status : Byte
  dev : List (Nat × Device)
  hist : List Event
  deriving DecidableEq, Repr

/-- R36. -/
def observe (s : State) : Observation where
  rsps := s.rsps
  crc := s.crc
  status := s.status
  dev := s.dev
  hist := s.hist

/-- R29, R36: the run has ended (cmd = k): the host has no frame left to send, whatever acts it still lists. -/
abbrev ended (s : State) : Prop := s.stream = [] ∧ ∀ p ∈ s.phases, p.stream = []

/-- The commands one after another; none if one of them does not answer a next state. -/
def runInstrs : List Instr → State → Option State
  | [], s => some s
  | i :: is, s =>
    match exec i s with
    | .next t => runInstrs is t
    | .fault _ => none
    | .refused _ => none

/-- R159, R290: the least time, in milliseconds, that the Delays of a history take. -/
def delayTime (p : Params) (es : List Event) : Nat := es.countP (fun e => !isTx e) * p.tWc

/-! ### What a command reports and keeps -/

/-- R27, R29: the command ended with this STATUS and these response bytes, and the next frame is due. -/
def Reported (s t : State) (st : Byte) (data : List Byte) : Prop :=
  t.status = st ∧ t.rsps = s.rsps ++ [⟨st, data⟩] ∧ t.cmd = s.cmd + 1

/-- R20, R274: the CRC register, the launch parameters and the host's input are as before. -/
def Kept (s t : State) : Prop :=
  t.crc = s.crc ∧ t.cfg = s.cfg ∧ t.stream = s.stream ∧ t.phases = s.phases

/-- R78: every device but the one at `a` is as before. -/
def OthersKept (a : Addr7) (s t : State) : Prop := ∀ b, b ≠ a → t.device b = s.device b

/-- R104, R245: the command raised an error and did nothing else. -/
def onlyRaised (s : State) (st : Byte) : State :=
  { s with status := st, rsps := s.rsps ++ [⟨st, []⟩], cmd := s.cmd + 1 }

/-- The bus address a command's transactions go to (R123, R124, R152, R156). -/
def target : Instr → Option Addr7
  | .crcInit => none
  | .crcBit _ => none
  | .crcByte _ => none
  | .crcRead => none
  | .crcMsg _ => none
  | .i2cWrite a _ => some (busAddr a)
  | .i2cRead a _ => some (busAddr a)
  | .eeRead a _ _ => some (busAddr a)
  | .eeWrite a _ _ => some (busAddr a)
  | .waitWc => none

/-- R68: the command writes nothing to the device at `a`. A read may address it. -/
def writesNothingTo (a : Addr7) : Instr → Prop
  | .crcInit => True
  | .crcBit _ => True
  | .crcByte _ => True
  | .crcRead => True
  | .crcMsg _ => True
  | .i2cWrite b _ => busAddr b ≠ a
  | .i2cRead _ _ => True
  | .eeRead _ _ _ => True
  | .eeWrite b _ _ => busAddr b ≠ a
  | .waitWc => True

/-- R20: the commands of C5G that write the CRC register or read it. -/
def usesCrc : Instr → Bool
  | .crcInit => true
  | .crcBit _ => true
  | .crcByte _ => true
  | .crcRead => true
  | .crcMsg _ => true
  | .i2cWrite _ _ => false
  | .i2cRead _ _ => false
  | .eeRead _ _ _ => false
  | .eeWrite _ _ _ => false
  | .waitWc => false

/-- R102: the command's reserved operand bits are 0. -/
def reservedClear : Instr → Bool
  | .crcInit => true
  | .crcBit d8 => !dataBitReserved d8
  | .crcByte _ => true
  | .crcRead => true
  | .crcMsg _ => true
  | .i2cWrite a _ => !addrReserved a
  | .i2cRead a _ => !addrReserved a
  | .eeRead a _ _ => !addrReserved a
  | .eeWrite a _ _ => !addrReserved a
  | .waitWc => true

/-- R55 to R62: every byte of the device is the free value of transaction `t`, and PTR is unknown. -/
def Havocked (cap t : Nat) (d : Device) : Prop :=
  d.ptr = none ∧ ∀ o, o < cap → Memory.read d.mem o = Config.freeMemByte t o

/-- R25: STATUS of an IoError. -/
def ioStatus : Cause → Byte
  | .unknown => 0x01#8
  | .nack => 0x05#8
  | .timeout => 0x09#8
  | .absent => 0x0D#8
  | .arbLost => 0x11#8

/-- R158: what a successful paced write of the bytes from offset `o` on logs. -/
def pacedEvents (a : Addr7) (o : Nat) : List Byte → List Event
  | [] => []
  | v :: vs => .txW a [BitVec.ofNat 8 o, v] .ok :: .delay :: pacedEvents a (o + 1) vs

end Sys2Proof.Safety
end

