-- ==== Sys2Proof/Certificates/Slice0/Obligations.lean ====
section
/-! DEFINITION. The statements for the provers. `R<n>` is a numbered rule of spec/. -/

open Sys2Proof Sys2Proof.Machine Sys2Proof.Safety

/-! ### C5G: the five CRC commands -/

/-- R184: the frame 01 is CRC_INIT; it sets CRC to INIT and STATUS to 0x00, answers (0x00, []) and changes nothing
else. -/
def Obligations.CrcInitLoadsInit : Prop :=
  (∀ rest : List Byte, decode (0x01#8 :: rest) = .instr .crcInit rest) ∧
  ∀ s : State, exec .crcInit s =
    .next { s with crc := s.cfg.init, status := 0x00#8, rsps := s.rsps ++ [⟨0x00#8, []⟩], cmd := s.cmd + 1 }

/-- R185, R181: CRC_BIT with D8[7:1] = 0 writes the bit step bit by bit, for any POLY, and changes nothing else. -/
def Obligations.CrcBitFeedsOneBit : Prop :=
  ∀ (s : State) (d8 : Byte), (∀ j, 1 ≤ j → j < 8 → d8.getLsbD j = false) →
    ∃ c : BitVec 5,
      exec (.crcBit d8) s =
        .next { s with crc := c, status := 0x00#8, rsps := s.rsps ++ [⟨0x00#8, []⟩], cmd := s.cmd + 1 } ∧
      c.getLsbD 0 = ((d8.getLsbD 0 ^^ s.crc.getLsbD 4) && s.cfg.poly.getLsbD 0) ∧
      ∀ j, 1 ≤ j → j ≤ 4 →
        c.getLsbD j = (s.crc.getLsbD (j - 1) ^^ ((d8.getLsbD 0 ^^ s.crc.getLsbD 4) && s.cfg.poly.getLsbD j))

/-- R186, R182: the frame 03 d is CRC_BYTE; it feeds the bits d[7] to d[0] to the bit step and changes nothing else. -/
def Obligations.CrcByteFeedsBitsMsbFirst : Prop :=
  (∀ (d : Byte) (rest : List Byte), decode (0x03#8 :: d :: rest) = .instr (.crcByte d) rest) ∧
  ∀ (s : State) (d : Byte), exec (.crcByte d) s =
    .next { s with
      crc := [7, 6, 5, 4, 3, 2, 1, 0].foldl (fun c j => crc5Bit s.cfg.poly c (d.getLsbD j)) s.crc
      status := 0x00#8
      rsps := s.rsps ++ [⟨0x00#8, []⟩]
      cmd := s.cmd + 1 }

/-- R185 (corner case): eight CRC_BITs with the bits of d, MSB first, leave the same CRC as one CRC_BYTE d. -/
def Obligations.CrcByteEqualsEightCrcBits : Prop :=
  ∀ (s : State) (d : Byte), ∃ t u,
    exec (.crcByte d) s = .next t ∧
    runInstrs ([7, 6, 5, 4, 3, 2, 1, 0].map fun j => .crcBit (if d.getLsbD j then 0x01#8 else 0x00#8)) s = some u ∧
    u.crc = t.crc ∧ u.dev = t.dev ∧ u.hist = t.hist

/-- R187: the frame 04 is CRC_READ; it answers (0x00, [CRC]) with the byte's bits 7 to 5 zero, and leaves CRC and all
else unchanged. -/
def Obligations.CrcReadReturnsRegister : Prop :=
  (∀ rest : List Byte, decode (0x04#8 :: rest) = .instr .crcRead rest) ∧
  ∀ s : State, ∃ b : Byte, b.toNat = s.crc.toNat ∧ exec .crcRead s =
    .next { s with status := 0x00#8, rsps := s.rsps ++ [⟨0x00#8, [b]⟩], cmd := s.cmd + 1 }

/-- R188: the frame 05 NH NL D is CRC_MSG of the payload D of NH·256 + NL bytes; it starts from INIT whatever CRC held,
feeds the payload's bytes in order, keeps the result in CRC and answers it; nothing else changes. -/
def Obligations.CrcMsgReturnsChecksum : Prop :=
  (∀ (nh nl : Byte) (d rest : List Byte), d.length = nh.toNat * 256 + nl.toNat →
    decode (0x05#8 :: nh :: nl :: (d ++ rest)) = .instr (.crcMsg d) rest) ∧
  ∀ (s : State) (d : List Byte), ∃ (c : BitVec 5) (b : Byte),
    c = d.foldl (crc5Byte s.cfg.poly) s.cfg.init ∧ b.toNat = c.toNat ∧
    ∀ c0 : BitVec 5, exec (.crcMsg d) { s with crc := c0 } =
      .next { s with crc := c, status := 0x00#8, rsps := s.rsps ++ [⟨0x00#8, [b]⟩], cmd := s.cmd + 1 }

/-- R189: a message may be split anywhere without changing its checksum. -/
def Obligations.SplitMessageKeepsChecksum : Prop :=
  ∀ (s : State) (xs ys : List Byte),
    (∃ t, runInstrs (.crcMsg xs :: ys.map .crcByte) s = some t ∧ t.crc = crc5 s.cfg (xs ++ ys)) ∧
    ∃ t, runInstrs (.crcInit :: (xs.map .crcByte ++ ys.map .crcByte)) s = some t ∧ t.crc = crc5 s.cfg (xs ++ ys)

/-- R273: after reset a message fed by CRC_BYTE gives its checksum without CRC_INIT, and CRC_READ returns it. -/
def Obligations.ChecksumWithoutInitAfterReset : Prop :=
  ∀ (s : State) (bs : List Byte), ∃ (t : State) (b : Byte),
    runInstrs (bs.map .crcByte ++ [.crcRead]) (resetBlock s) = some t ∧
    t.crc = crc5 s.cfg bs ∧ b.toNat = (crc5 s.cfg bs).toNat ∧ t.rsps.getLast? = some ⟨0x00#8, [b]⟩

/-- spec/95_test_vectors.md §2.3: the byte step is linear over GF(2), for any POLY. -/
def Obligations.CrcByteStepIsLinear : Prop :=
  ∀ (poly c c' : BitVec 5) (d d' : Byte),
    crc5Byte poly (c ^^^ c') (d ^^^ d') = crc5Byte poly c d ^^^ crc5Byte poly c' d'

/-! ### What every command does -/

/-- R25, R27, R29, R240: from every state every command completes; it gives exactly one response, whose status byte is
STATUS and one of the ten legal values, with data only if it ended OK, and cmd advances by 1. -/
def Obligations.EveryCommandRespondsOnce : Prop :=
  ∀ (i : Instr) (s : State), ∃ t st data,
    exec i s = .next t ∧ Reported s t st data ∧ legalStatus st = true ∧ (st ≠ 0x00#8 → data = [])

/-- R24, R248: no command reads STATUS: whatever it held, the next state is the same. -/
def Obligations.StatusIsNeverRead : Prop :=
  ∀ (i : Instr) (s : State) (st : Byte), exec i { s with status := st } = exec i s

/-- R20: no command but the five of C5G reads or writes CRC. -/
def Obligations.OnlyCrcCommandsUseCrc : Prop :=
  ∀ (i : Instr) (s : State) (c : BitVec 5), usesCrc i = false →
    ∃ t, exec i s = .next t ∧ t.crc = s.crc ∧ exec i { s with crc := c } = .next { t with crc := c }

/-- R33: a command appends to HIST and never reads it: whatever HIST held, it does and answers the same. -/
def Obligations.HistoryIsAppendOnly : Prop :=
  ∀ (i : Instr) (s : State), ∃ t es, exec i s = .next t ∧ t.hist = s.hist ++ es ∧
    ∀ h, exec i { s with hist := h } = .next { t with hist := h ++ es }

/-- R30, R274, R282: no command changes which devices are present, a device's own write-cycle time (the model's field,
notes/assumptions/13.md), the launch parameters or what the host still sends. -/
def Obligations.CommandsKeepDomainAndLaunch : Prop :=
  ∀ (i : Instr) (s : State), ∃ t, exec i s = .next t ∧
    (∀ b, (t.device b).isSome = (s.device b).isSome ∧
      (t.device b).map Device.cycle = (s.device b).map Device.cycle) ∧
    t.cfg = s.cfg ∧ t.stream = s.stream ∧ t.phases = s.phases

/-- R78: a command's transactions change only the device they address, and a Delay clears WCP of the others and changes
nothing else of them; and they read only that device: with any other devices beside it the command answers, logs and
leaves there the same. -/
def Obligations.TransactionsUseOneDevice : Prop :=
  ∀ (i : Instr) (s : State), ∃ t, exec i s = .next t ∧
    (∀ b, target i ≠ some b →
      (Event.delay ∉ t.hist.drop s.hist.length → t.device b = s.device b) ∧
      (Event.delay ∈ t.hist.drop s.hist.length →
        t.device b = (s.device b).map fun d => { d with wcp := false })) ∧
    ∀ s' : State, s' = { s with dev := s'.dev } → (∀ a, target i = some a → s'.device a = s.device a) →
      ∃ t', exec i s' = .next t' ∧ t' = { t with dev := t'.dev } ∧ ∀ a, target i = some a → t'.device a = t.device a

/-- R63 (last sentence): a device in a write cycle stays in it through a command that logs no Delay. -/
def Obligations.OnlyDelayEndsWriteCycle : Prop :=
  ∀ (i : Instr) (s : State), ∃ t, exec i s = .next t ∧
    ∀ b d, s.device b = some d → d.wcp = true → Event.delay ∉ t.hist.drop s.hist.length →
      ∃ d', t.device b = some d' ∧ d'.wcp = true

/-! ### Errors before any transaction -/

/-- R104, R102: an assigned opcode with a reserved operand bit set raises Illegal(RSVD), whatever its other operands
(R245): STATUS and response 0x07, nothing else changes but cmd. -/
def Obligations.ReservedBitsRaiseIllegal : Prop :=
  (∀ (s : State) (a : Byte), a.getLsbD 7 = true →
    (∀ d, exec (.i2cWrite a d) s = .next (onlyRaised s 0x07#8)) ∧
    (∀ n, exec (.i2cRead a n) s = .next (onlyRaised s 0x07#8)) ∧
    (∀ off n, exec (.eeRead a off n) s = .next (onlyRaised s 0x07#8)) ∧
    ∀ off d, exec (.eeWrite a off d) s = .next (onlyRaised s 0x07#8)) ∧
  ∀ (s : State) (d8 : Byte) (j : Nat), 1 ≤ j → j < 8 → d8.getLsbD j = true →
    exec (.crcBit d8) s = .next (onlyRaised s 0x07#8)

/-- R123, R124, R152: with A[7] = 0, N = 0 or N > MAX_XFER raises CfgError(LENGTH) in I2C_WRITE, I2C_READ and EE_READ
(there whatever OFF is, so before the capacity check, R245), and does nothing else but advance cmd. -/
def Obligations.BadLengthRaisesCfgError : Prop :=
  ∀ (s : State) (a : Byte), a.getLsbD 7 = false →
    (∀ d : List Byte, d.length = 0 ∨ s.cfg.maxXfer < d.length →
      exec (.i2cWrite a d) s = .next (onlyRaised s 0x02#8)) ∧
    ∀ n : BitVec 16, n.toNat = 0 ∨ s.cfg.maxXfer < n.toNat →
      exec (.i2cRead a n) s = .next (onlyRaised s 0x02#8) ∧
      ∀ off, exec (.eeRead a off n) s = .next (onlyRaised s 0x02#8)

/-- R151: both EEPROM commands check OFF + N against CAP, without wrapping, before any transaction: CfgError(CAPACITY),
nothing else changes but cmd. -/
def Obligations.PastCapacityRaisesCfgError : Prop :=
  ∀ (s : State) (a off : Byte), a.getLsbD 7 = false →
    (∀ n : BitVec 16, 1 ≤ n.toNat → n.toNat ≤ s.cfg.maxXfer → s.cfg.cap < off.toNat + n.toNat →
      exec (.eeRead a off n) s = .next (onlyRaised s 0x06#8)) ∧
    ∀ d : List Byte, s.cfg.cap < off.toNat + d.length →
      exec (.eeWrite a off d) s = .next (onlyRaised s 0x06#8)

/-- R103, R99: an opcode not in the table is a one-byte frame that raises Illegal(BADOP); the bytes after it are the
next frame. -/
def Obligations.UnassignedOpcodeRaisesIllegal : Prop :=
  ∀ (s : State) (op : Byte) (rest : List Byte),
    op ∉ [0x01#8, 0x02#8, 0x03#8, 0x04#8, 0x05#8, 0x10#8, 0x11#8, 0x20#8, 0x21#8, 0x30#8] →
    s.stream = op :: rest →
    step s = .next { s with
      stream := rest, status := 0x03#8, rsps := s.rsps ++ [⟨0x03#8, []⟩], cmd := s.cmd + 1 }

/-- R105: if the host's stream ends inside a frame, the block has no step. -/
def Obligations.IncompleteFrameIsStuck : Prop :=
  ∀ (s : State) (i : Instr) (p q : List Byte), i.wellFormed = true → encode i = p ++ q → p ≠ [] → q ≠ [] →
    s.stream = p → step s = .fault .incompleteFrame

/-- R29, R36: the run has ended exactly when the host has no frame left to send, whatever acts it still lists; a step then
changes nothing, and in no other state does it say that the run has ended. -/
def Obligations.RunEndsWhenHostIsDone : Prop :=
  ∀ s : State, step s = .fault .runEnded ↔ ended s

/-! ### Raw transactions -/

/-- R55: an Ok one-byte write to a device at rest sets PTR and leaves MEM, WCP and every other device unchanged. -/
def Obligations.I2cWriteSetsPointer : Prop :=
  ∀ (s : State) (a o : Byte) (d : Device), a.getLsbD 7 = false → 1 ≤ s.cfg.maxXfer →
    s.device (busAddr a) = some d → d.wcp = false → (s.draw 0).ok = true →
    ∃ t, exec (.i2cWrite a [o]) s = .next t ∧
      t.device (busAddr a) = some { d with ptr := some o } ∧ OthersKept (busAddr a) s t ∧
      t.hist = s.hist ++ [.txW (busAddr a) [o] .ok] ∧ Reported s t 0x00#8 [] ∧ Kept s t

/-- R56: an Ok two-byte write [o, v] with o < CAP to a device at rest stores v at o, changes no other byte, sets WCP and
makes PTR unknown. The premise WriteCycleFits (R282; notes/assumptions/13.md) still holds of the device. -/
def Obligations.I2cWriteStoresByte : Prop :=
  ∀ (s : State) (a o v : Byte) (d : Device), a.getLsbD 7 = false → 2 ≤ s.cfg.maxXfer → o.toNat < s.cfg.cap →
    s.device (busAddr a) = some d → d.wcp = false → WriteCycleFits s.cfg d →
    (s.draw 0).ok = true →
    ∃ t d', exec (.i2cWrite a [o, v]) s = .next t ∧ t.device (busAddr a) = some d' ∧
      Memory.read d'.mem o.toNat = v ∧ (∀ x, x ≠ o.toNat → Memory.read d'.mem x = Memory.read d.mem x) ∧
      d'.wcp = true ∧ d'.ptr = none ∧ WriteCycleFits t.cfg d' ∧ OthersKept (busAddr a) s t ∧
      t.hist = s.hist ++ [.txW (busAddr a) [o, v] .ok] ∧ Reported s t 0x00#8 [] ∧ Kept s t

/-- R57, R58: an Ok write [o, v] with o ≥ CAP, or of three or more bytes, to a device at rest makes every byte of the
device a draw, PTR unknown, and sets WCP. The draws are the model's free values Config.freeMemByte
(notes/assumptions/8.md). The premise WriteCycleFits (R282; 13.md) still holds of the device. -/
def Obligations.I2cWriteOtherShapesHavoc : Prop :=
  ∀ (s : State) (a : Byte) (bs : List Byte) (d : Device), a.getLsbD 7 = false → bs.length ≤ s.cfg.maxXfer →
    ((∃ o v, bs = [o, v] ∧ s.cfg.cap ≤ o.toNat) ∨ 3 ≤ bs.length) →
    s.device (busAddr a) = some d → d.wcp = false → WriteCycleFits s.cfg d →
    (s.draw 0).ok = true →
    ∃ t d', exec (.i2cWrite a bs) s = .next t ∧ t.device (busAddr a) = some d' ∧
      Havocked s.cfg.cap s.tx d' ∧ d'.wcp = true ∧ WriteCycleFits t.cfg d' ∧ OthersKept (busAddr a) s t ∧
      t.hist = s.hist ++ [.txW (busAddr a) bs .ok] ∧ Reported s t 0x00#8 [] ∧ Kept s t

/-- R61 (writes): a failed write to a device at rest makes PTR unknown; one byte changes nothing more; [o, v] with
o < CAP leaves the byte at o a draw, every other byte as it was, and WCP set; any other shape is havoc with WCP set. The
draws are the model's free values (notes/assumptions/7.md, 8.md). The premise WriteCycleFits (R282; 13.md) still holds
of the device. -/
def Obligations.FailedI2cWriteEffects : Prop :=
  ∀ (s : State) (a : Byte) (bs : List Byte) (d : Device), a.getLsbD 7 = false →
    1 ≤ bs.length → bs.length ≤ s.cfg.maxXfer →
    s.device (busAddr a) = some d → d.wcp = false → WriteCycleFits s.cfg d →
    (s.draw 0).ok = false →
    ∃ t d', exec (.i2cWrite a bs) s = .next t ∧ t.device (busAddr a) = some d' ∧
      (if bs.length = 1 then d' = { d with ptr := none }
       else if bs.length = 2 ∧ (bs.headD 0x00#8).toNat < s.cfg.cap then
         d'.ptr = none ∧ d'.wcp = true ∧
         ∀ x, Memory.read d'.mem x =
           if x = (bs.headD 0x00#8).toNat then Config.freeMemByte s.tx x else Memory.read d.mem x
       else Havocked s.cfg.cap s.tx d' ∧ d'.wcp = true) ∧
      WriteCycleFits t.cfg d' ∧ OthersKept (busAddr a) s t ∧
      t.hist = s.hist ++ [.txW (busAddr a) bs (.err (s.draw 0).cause)] ∧
      Reported s t (ioStatus (s.draw 0).cause) [] ∧ Kept s t

/-- R59, R60: an Ok read of N bytes from a device at rest returns the bytes from PTR on, past CAP as READ_WRAP says, or
draws if PTR is unknown; PTR becomes unknown, and MEM and WCP are unchanged. The draws are the model's free values
(notes/assumptions/8.md). -/
def Obligations.I2cReadReturnsBytesFromPointer : Prop :=
  ∀ (s : State) (a : Byte) (n : BitVec 16) (d : Device), a.getLsbD 7 = false →
    1 ≤ n.toNat → n.toNat ≤ s.cfg.maxXfer →
    s.device (busAddr a) = some d → d.wcp = false → (s.draw 0).ok = true →
    ∃ t bs, exec (.i2cRead a n) s = .next t ∧ bs.length = n.toNat ∧
      (∀ k, k < n.toNat → bs[k]? = some (
        match d.ptr with
        | none => Config.freeReadByte s.tx k
        | some p =>
          if p.toNat + k < s.cfg.cap then Memory.read d.mem (p.toNat + k)
          else if s.cfg.readWrap = .wrap then Memory.read d.mem ((p.toNat + k) % s.cfg.cap)
          else Config.freeReadByte s.tx k)) ∧
      t.device (busAddr a) = some { d with ptr := none } ∧ OthersKept (busAddr a) s t ∧
      t.hist = s.hist ++ [.txR (busAddr a) n.toNat (.ok bs)] ∧ Reported s t 0x00#8 bs ∧ Kept s t

/-- R61 (reads), R152 (corner case): a failed read from a device at rest makes PTR unknown, leaves MEM, WCP and every
other device unchanged and returns no data: I2C_READ, EE_READ whose pointer write fails, and EE_READ whose read fails.
-/
def Obligations.FailedI2cReadReturnsNothing : Prop :=
  ∀ (s : State) (a : Byte) (n : BitVec 16) (d : Device), a.getLsbD 7 = false →
    1 ≤ n.toNat → n.toNat ≤ s.cfg.maxXfer →
    s.device (busAddr a) = some d → d.wcp = false →
    ((s.draw 0).ok = false → ∃ t, exec (.i2cRead a n) s = .next t ∧
      t.device (busAddr a) = some { d with ptr := none } ∧ OthersKept (busAddr a) s t ∧
      t.hist = s.hist ++ [.txR (busAddr a) n.toNat (.err (s.draw 0).cause)] ∧
      Reported s t (ioStatus (s.draw 0).cause) [] ∧ Kept s t) ∧
    ∀ off : Byte, off.toNat + n.toNat ≤ s.cfg.cap →
      ((s.draw 0).ok = false → ∃ t, exec (.eeRead a off n) s = .next t ∧
        t.device (busAddr a) = some { d with ptr := none } ∧ OthersKept (busAddr a) s t ∧
        t.hist = s.hist ++ [.txW (busAddr a) [off] (.err (s.draw 0).cause)] ∧
        Reported s t (ioStatus (s.draw 0).cause) [] ∧ Kept s t) ∧
      ((s.draw 0).ok = true → (s.draw 1).ok = false → ∃ t, exec (.eeRead a off n) s = .next t ∧
        t.device (busAddr a) = some { d with ptr := none } ∧ OthersKept (busAddr a) s t ∧
        t.hist = s.hist ++ [.txW (busAddr a) [off] .ok, .txR (busAddr a) n.toNat (.err (s.draw 1).cause)] ∧
        Reported s t (ioStatus (s.draw 1).cause) [] ∧ Kept s t)

/-- R121 (1), R61 (last sentence): a transaction to an absent address ends Err and changes no device; the command stops
at it (R126). -/
def Obligations.AbsentDeviceFails : Prop :=
  ∀ (s : State) (a : Byte), a.getLsbD 7 = false → s.device (busAddr a) = none →
    (∀ d : List Byte, 1 ≤ d.length → d.length ≤ s.cfg.maxXfer →
      ∃ t, exec (.i2cWrite a d) s = .next t ∧ t.dev = s.dev ∧
        t.hist = s.hist ++ [.txW (busAddr a) d (.err (s.draw 0).cause)] ∧
        Reported s t (ioStatus (s.draw 0).cause) [] ∧ Kept s t) ∧
    (∀ n : BitVec 16, 1 ≤ n.toNat → n.toNat ≤ s.cfg.maxXfer →
      (∃ t, exec (.i2cRead a n) s = .next t ∧ t.dev = s.dev ∧
        t.hist = s.hist ++ [.txR (busAddr a) n.toNat (.err (s.draw 0).cause)] ∧
        Reported s t (ioStatus (s.draw 0).cause) [] ∧ Kept s t) ∧
      ∀ off : Byte, off.toNat + n.toNat ≤ s.cfg.cap →
        ∃ t, exec (.eeRead a off n) s = .next t ∧ t.dev = s.dev ∧
          t.hist = s.hist ++ [.txW (busAddr a) [off] (.err (s.draw 0).cause)] ∧
          Reported s t (ioStatus (s.draw 0).cause) [] ∧ Kept s t) ∧
    ∀ (off v : Byte) (vs : List Byte), off.toNat + (v :: vs).length ≤ s.cfg.cap →
      ∃ t, exec (.eeWrite a off (v :: vs)) s = .next t ∧ t.dev = s.dev ∧
        t.hist = s.hist ++ [.txW (busAddr a) [off, v] (.err (s.draw 0).cause)] ∧
        Reported s t (ioStatus (s.draw 0).cause) [] ∧ Kept s t

/-- R62, R154: what a command does to a device with WCP = true. Each of its transactions under the write cycle has a
drawn outcome and havocs the device; WCP stays true; a read's bytes are all draws. EE_READ makes up to two such
transactions. EE_WRITE makes one: if it fails the command ends there; if not, the Delay after it ends the write cycle
and the rest is an EE_WRITE of the remaining bytes to the havocked device at rest. The two commands that write take the
premise WriteCycleFits (R282), under which that Delay covers a write cycle of the device; it still holds of the device
afterwards. The draws are the model's free values (notes/assumptions/7.md, 8.md), the device's write-cycle time and the
Delay's length the model's own terms (13.md, 15.md). -/
def Obligations.WriteCycleHazardHavocs : Prop :=
  ∀ (s : State) (a : Byte) (d : Device), a.getLsbD 7 = false →
    s.device (busAddr a) = some d → d.wcp = true →
    (∀ bs : List Byte, 1 ≤ bs.length → bs.length ≤ s.cfg.maxXfer → WriteCycleFits s.cfg d →
      ∃ t d', exec (.i2cWrite a bs) s = .next t ∧ t.device (busAddr a) = some d' ∧
        Havocked s.cfg.cap s.tx d' ∧ d'.wcp = true ∧ WriteCycleFits t.cfg d' ∧
        OthersKept (busAddr a) s t ∧ Kept s t ∧
        if (s.draw 0).okInHazard then
          Reported s t 0x00#8 [] ∧ t.hist = s.hist ++ [.txW (busAddr a) bs .ok]
        else
          Reported s t (ioStatus (s.draw 0).cause) [] ∧
            t.hist = s.hist ++ [.txW (busAddr a) bs (.err (s.draw 0).cause)]) ∧
    (∀ n : BitVec 16, 1 ≤ n.toNat → n.toNat ≤ s.cfg.maxXfer →
      (∃ t d' bs, exec (.i2cRead a n) s = .next t ∧ t.device (busAddr a) = some d' ∧
        Havocked s.cfg.cap s.tx d' ∧ d'.wcp = true ∧ OthersKept (busAddr a) s t ∧ Kept s t ∧
        bs.length = n.toNat ∧ (∀ k, k < n.toNat → bs[k]? = some (Config.freeReadByte s.tx k)) ∧
        if (s.draw 0).okInHazard then
          Reported s t 0x00#8 bs ∧ t.hist = s.hist ++ [.txR (busAddr a) n.toNat (.ok bs)]
        else
          Reported s t (ioStatus (s.draw 0).cause) [] ∧
            t.hist = s.hist ++ [.txR (busAddr a) n.toNat (.err (s.draw 0).cause)]) ∧
      ∀ off : Byte, off.toNat + n.toNat ≤ s.cfg.cap →
        ∃ t d' bs, exec (.eeRead a off n) s = .next t ∧ t.device (busAddr a) = some d' ∧
          d'.wcp = true ∧ OthersKept (busAddr a) s t ∧ Kept s t ∧
          bs.length = n.toNat ∧ (∀ k, k < n.toNat → bs[k]? = some (Config.freeReadByte (s.tx + 1) k)) ∧
          if (s.draw 0).okInHazard then
            Havocked s.cfg.cap (s.tx + 1) d' ∧
            if (s.draw 1).okInHazard then
              Reported s t 0x00#8 bs ∧
                t.hist = s.hist ++ [.txW (busAddr a) [off] .ok, .txR (busAddr a) n.toNat (.ok bs)]
            else
              Reported s t (ioStatus (s.draw 1).cause) [] ∧
                t.hist = s.hist ++ [.txW (busAddr a) [off] .ok, .txR (busAddr a) n.toNat (.err (s.draw 1).cause)]
          else
            Havocked s.cfg.cap s.tx d' ∧ Reported s t (ioStatus (s.draw 0).cause) [] ∧
              t.hist = s.hist ++ [.txW (busAddr a) [off] (.err (s.draw 0).cause)]) ∧
    ∀ (off v : Byte) (vs : List Byte), s.cfg.cap ≤ 256 → off.toNat + (v :: vs).length ≤ s.cfg.cap →
      WriteCycleFits s.cfg d →
      if (s.draw 0).okInHazard then
        ∃ u d', exec (.eeWrite a off (v :: vs)) s = exec (.eeWrite a (off + 1#8) vs) u ∧
          u.device (busAddr a) = some d' ∧ Havocked s.cfg.cap s.tx d' ∧ d'.wcp = false ∧
          WriteCycleFits u.cfg d' ∧ d.cycle ≤ delayTime s.cfg (u.hist.drop s.hist.length) ∧
          (∀ b, b ≠ busAddr a → u.device b = (s.device b).map fun e => { e with wcp := false }) ∧
          u.hist = s.hist ++ [.txW (busAddr a) [off, v] .ok, .delay] ∧ Kept s u ∧
          u.rsps = s.rsps ∧ u.cmd = s.cmd ∧ u.tx = s.tx + 1 ∧ ∀ k, u.draw k = s.draw (k + 1)
      else
        ∃ t d', exec (.eeWrite a off (v :: vs)) s = .next t ∧ t.device (busAddr a) = some d' ∧
          Havocked s.cfg.cap s.tx d' ∧ d'.wcp = true ∧ WriteCycleFits t.cfg d' ∧
          OthersKept (busAddr a) s t ∧ Kept s t ∧
          t.hist = s.hist ++ [.txW (busAddr a) [off, v] (.err (s.draw 0).cause)] ∧
          Reported s t (ioStatus (s.draw 0).cause) []

/-! ### The EEPROM commands -/

/-- R152: EE_READ of a legal range of a device at rest, on a reliable channel, returns its bytes OFF to OFF + N − 1,
through one pointer write and one read; MEM and WCP are unchanged and PTR is unknown. -/
def Obligations.EeReadReturnsMemory : Prop :=
  ∀ (s : State) (a off : Byte) (n : BitVec 16) (d : Device), a.getLsbD 7 = false →
    1 ≤ n.toNat → n.toNat ≤ s.cfg.maxXfer → off.toNat + n.toNat ≤ s.cfg.cap →
    s.device (busAddr a) = some d → d.wcp = false → ChannelReliable 2 s →
    ∃ t bs, exec (.eeRead a off n) s = .next t ∧ bs.length = n.toNat ∧
      (∀ k, k < n.toNat → bs[k]? = some (Memory.read d.mem (off.toNat + k))) ∧
      t.device (busAddr a) = some { d with ptr := none } ∧ OthersKept (busAddr a) s t ∧
      t.hist = s.hist ++
        [.txW (busAddr a) [off] .ok, .txR (busAddr a) n.toNat (.ok bs)] ∧
      Reported s t 0x00#8 bs ∧ Kept s t

/-- R153: EE_READ is all-or-nothing: OK with exactly N bytes (those of the memory, if the device was at rest), or an
error with no data. -/
def Obligations.EeReadIsAllOrNothing : Prop :=
  ∀ (s : State) (a off : Byte) (n : BitVec 16), ∃ t st data,
    exec (.eeRead a off n) s = .next t ∧ Reported s t st data ∧
    (st = 0x00#8 → data.length = n.toNat ∧
      ∀ d, s.device (busAddr a) = some d → d.wcp = false →
        ∀ k, k < n.toNat → data[k]? = some (Memory.read d.mem (off.toNat + k))) ∧
    (st ≠ 0x00#8 → data = [])

/-- R154: EE_READ issues at most TxW(a, [OFF]) and then TxR(a, N), the second only if the first succeeded, and never a
Delay. -/
def Obligations.EeReadTransactionsInOrder : Prop :=
  ∀ (s : State) (a off : Byte) (n : BitVec 16), ∃ t, exec (.eeRead a off n) s = .next t ∧
    (t.hist = s.hist ∨
     (∃ c, t.hist = s.hist ++ [.txW (busAddr a) [off] (.err c)]) ∨
     ∃ r, t.hist = s.hist ++ [.txW (busAddr a) [off] .ok, .txR (busAddr a) n.toNat r])

/-- R68: an EE_READ of a device at rest and the same EE_READ after any commands that write nothing to that device
(reads of it, commands to other devices, WAIT_WC, CRC commands) give the same bytes when both succeed. -/
def Obligations.EeReadIsRepeatable : Prop :=
  ∀ (s : State) (a off : Byte) (n : BitVec 16) (d : Device) (is : List Instr),
    s.device (busAddr a) = some d → d.wcp = false → (∀ i ∈ is, writesNothingTo (busAddr a) i) →
    ∃ t u v, exec (.eeRead a off n) s = .next t ∧ runInstrs is t = some u ∧ exec (.eeRead a off n) u = .next v ∧
      (t.status = 0x00#8 → v.status = 0x00#8 → ∃ bs : List Byte, bs.length = n.toNat ∧
        t.rsps = s.rsps ++ [⟨0x00#8, bs⟩] ∧ v.rsps = u.rsps ++ [⟨0x00#8, bs⟩])

/-- R156, R158: EE_WRITE of a legal range of a device at rest, on a reliable channel, stores the payload from OFF on
and no other byte, logs N TxW and N Delay events, alternating, and leaves WCP clear. Under the premise of R282 the
Delays cover N write cycles of the device (the model's terms: notes/assumptions/13.md, 15.md). -/
def Obligations.EeWriteStoresPayload : Prop :=
  ∀ (s : State) (a off : Byte) (bs : List Byte) (d : Device), a.getLsbD 7 = false →
    s.cfg.cap ≤ 256 → off.toNat + bs.length ≤ s.cfg.cap →
    s.device (busAddr a) = some d → d.wcp = false → WriteCycleFits s.cfg d →
    ChannelReliable bs.length s →
    ∃ t d', exec (.eeWrite a off bs) s = .next t ∧ t.device (busAddr a) = some d' ∧
      (∀ x, Memory.read d'.mem x =
        if off.toNat ≤ x then (bs[x - off.toNat]?).getD (Memory.read d.mem x) else Memory.read d.mem x) ∧
      d'.wcp = false ∧ d'.ptr = (if bs = [] then d.ptr else none) ∧
      (∀ b, b ≠ busAddr a →
        t.device b = if bs = [] then s.device b else (s.device b).map fun e => { e with wcp := false }) ∧
      t.hist = s.hist ++ pacedEvents (busAddr a) off.toNat bs ∧
      WriteCycleFits t.cfg d' ∧ bs.length * d.cycle ≤ delayTime s.cfg (t.hist.drop s.hist.length) ∧
      Reported s t 0x00#8 [] ∧ Kept s t

/-- R156 (corner case N = 0): with OFF ≤ CAP it performs no transaction and no Delay and ends OK, whatever device is
present. -/
def Obligations.EeWriteOfNothingEndsOk : Prop :=
  ∀ (s : State) (a off : Byte), a.getLsbD 7 = false → off.toNat ≤ s.cfg.cap →
    exec (.eeWrite a off []) s =
      .next { s with status := 0x00#8, rsps := s.rsps ++ [⟨0x00#8, []⟩], cmd := s.cmd + 1 }

/-- R157: if the transaction for the byte after `xs` fails, `xs` has been written and paced, that byte is a draw, WCP is
set, the rest is not issued, no Delay follows, and the command ends with the failure's cause. The draw is the model's
free value (notes/assumptions/8.md). Under the premise of R282 the Delays cover a write cycle for each byte of `xs`
(the model's terms: 13.md, 15.md). -/
def Obligations.EeWriteStopsAtFirstFailure : Prop :=
  ∀ (s : State) (a off v : Byte) (xs ys : List Byte) (d : Device), a.getLsbD 7 = false →
    s.cfg.cap ≤ 256 → off.toNat + (xs ++ v :: ys).length ≤ s.cfg.cap →
    s.device (busAddr a) = some d → d.wcp = false → WriteCycleFits s.cfg d →
    ChannelReliable xs.length s → (s.draw xs.length).ok = false →
    ∃ t d', exec (.eeWrite a off (xs ++ v :: ys)) s = .next t ∧ t.device (busAddr a) = some d' ∧
      (∀ x, Memory.read d'.mem x =
        if x = off.toNat + xs.length then Config.freeMemByte (s.tx + xs.length) x
        else if off.toNat ≤ x then (xs[x - off.toNat]?).getD (Memory.read d.mem x) else Memory.read d.mem x) ∧
      d'.wcp = true ∧ d'.ptr = none ∧
      t.hist = s.hist ++ pacedEvents (busAddr a) off.toNat xs ++
        [.txW (busAddr a) [BitVec.ofNat 8 (off.toNat + xs.length), v] (.err (s.draw xs.length).cause)] ∧
      WriteCycleFits t.cfg d' ∧ xs.length * d.cycle ≤ delayTime s.cfg (t.hist.drop s.hist.length) ∧
      Reported s t (ioStatus (s.draw xs.length).cause) [] ∧ Kept s t

/-- R160, R63: the frame 30 is WAIT_WC; it logs one Delay and clears WCP of every present device; nothing else of any
device changes. -/
def Obligations.WaitWcEndsWriteCycles : Prop :=
  (∀ rest : List Byte, decode (0x30#8 :: rest) = .instr .waitWc rest) ∧
  ∀ s : State, ∃ t, exec .waitWc s = .next t ∧
    (∀ b, t.device b = (s.device b).map fun d => { d with wcp := false }) ∧
    t.hist = s.hist ++ [.delay] ∧ Reported s t 0x00#8 [] ∧ Kept s t

/-- R159, R290: the Delays of a successful EE_WRITE of N bytes take at least N × T_WC and, under the premise
of R282, at least N write cycles of the device (the model's terms: notes/assumptions/13.md, 15.md). -/
def Obligations.EeWriteDelaysAddUp : Prop :=
  ∀ (s : State) (a off : Byte) (bs : List Byte), a.getLsbD 7 = false → s.cfg.cap ≤ 256 →
    off.toNat + bs.length ≤ s.cfg.cap →
    ∃ t st, exec (.eeWrite a off bs) s = .next t ∧ Reported s t st [] ∧
      delayTime s.cfg (t.hist.drop s.hist.length) ≤ bs.length * s.cfg.tWc ∧
      (st = 0x00#8 → delayTime s.cfg (t.hist.drop s.hist.length) = bs.length * s.cfg.tWc ∧
        ∀ d, s.device (busAddr a) = some d → WriteCycleFits s.cfg d →
          bs.length * d.cycle ≤ delayTime s.cfg (t.hist.drop s.hist.length))

/-- R107: POKE a, off, d ends with the same devices, HIST, CRC and STATUS as EE_WRITE a, off, [d] when off + 1 ≤ CAP,
the device is at rest and the write succeeds; under the premise of R282 its Delay covers a write cycle of the device
(the model's terms: notes/assumptions/13.md, 15.md). -/
def Obligations.PokeEqualsOneByteEeWrite : Prop :=
  ∀ (s : State) (a off v : Byte) (d : Device), a.getLsbD 7 = false → s.cfg.wf → off.toNat + 1 ≤ s.cfg.cap →
    s.device (busAddr a) = some d → d.wcp = false → WriteCycleFits s.cfg d →
    (s.draw 0).ok = true →
    ∃ is t u, (expand (.poke a.toNat off.toNat v.toNat)).bind assembleLines = some is ∧
      runInstrs is s = some t ∧ exec (.eeWrite a off [v]) s = .next u ∧
      t.dev = u.dev ∧ t.hist = u.hist ∧ t.crc = u.crc ∧ t.status = u.status ∧
      d.cycle ≤ delayTime s.cfg (t.hist.drop s.hist.length)

/-- R161: the clone property. Under ChannelReliable and CapMatches, reading all of a source device and writing what was
read to a target device, in any later state with the same parameters, leaves the target's memory equal to the source's.
Both memories are in the model's canonical form (notes/assumptions/6.md). Under the premise of R282 the
Delays cover CAP write cycles of the target: the device's write-cycle time (notes/assumptions/13.md) and the time of a
Delay (15.md) are the model's own terms. -/
def Obligations.CloneCopiesWholeDevice : Prop :=
  ∀ (s : State) (a : Byte) (src : Device), a.getLsbD 7 = false → s.cfg.wf → s.cfg.cap ≤ s.cfg.maxXfer →
    s.device (busAddr a) = some src → src.wcp = false → Memory.canonical src.mem →
    ChannelReliable 2 s → CapMatches s →
    ∃ t image, exec (.eeRead a 0x00#8 (BitVec.ofNat 16 s.cfg.cap)) s = .next t ∧
      t.rsps = s.rsps ++ [⟨0x00#8, image⟩] ∧ image.length = s.cfg.cap ∧
      (∀ o, o < s.cfg.cap → image[o]? = some (Memory.read src.mem o)) ∧
      ∀ (u : State) (tgt : Device), u.cfg = s.cfg → u.device (busAddr a) = some tgt → tgt.wcp = false →
        WriteCycleFits u.cfg tgt → Memory.canonical tgt.mem → ChannelReliable u.cfg.cap u → CapMatches u →
        ∃ v tgt', exec (.eeWrite a 0x00#8 image) u = .next v ∧ v.device (busAddr a) = some tgt' ∧
          tgt'.mem = src.mem ∧ tgt'.wcp = false ∧ v.status = 0x00#8 ∧
          WriteCycleFits v.cfg tgt' ∧ s.cfg.cap * tgt.cycle ≤ delayTime u.cfg (v.hist.drop u.hist.length)

/-! ### Frames -/

/-- R91, R100, R101: decoding a command's frame gives back the command, whole, and leaves the bytes after it. -/
def Obligations.DecodeOfEncode : Prop :=
  ∀ (i : Instr) (rest : List Byte), i.wellFormed = true → decode (encode i ++ rest) = .instr i rest

/-- R91, R98: a frame that decodes to a command is that command's one encoding. -/
def Obligations.DecodedFrameIsItsEncoding : Prop :=
  ∀ (bs rest : List Byte) (i : Instr), decode bs = .instr i rest → i.wellFormed = true ∧ bs = encode i ++ rest

/-- R100: the length of a frame, from its opcode and its count field; an unassigned opcode is one byte long. -/
def Obligations.FrameLengthIsFormatLength : Prop :=
  (∀ (op : Byte) (rest : List Byte),
    op ∉ [0x01#8, 0x02#8, 0x03#8, 0x04#8, 0x05#8, 0x10#8, 0x11#8, 0x20#8, 0x21#8, 0x30#8] →
    frameLength (op :: rest) = some 1) ∧
  ∀ (i : Instr) (rest : List Byte), i.wellFormed = true →
    frameLength (encode i ++ rest) = some (encode i).length ∧
    (encode i).length =
      match i with
      | .crcInit => 1
      | .crcBit _ => 2
      | .crcByte _ => 2
      | .crcRead => 1
      | .crcMsg d => 3 + d.length
      | .i2cWrite _ d => 4 + d.length
      | .i2cRead _ _ => 4
      | .eeRead _ _ _ => 5
      | .eeWrite _ _ d => 5 + d.length
      | .waitWc => 1

/-- R98, R106: words written out from the encoding table decode to their commands (a sanity statement). -/
def Obligations.EncodingExamplesDecode : Prop :=
  decode [0x02#8, 0x01#8] = .instr (.crcBit 0x01#8) [] ∧
  decode [0x05#8, 0x00#8, 0x02#8, 0x12#8, 0x34#8, 0x30#8] = .instr (.crcMsg [0x12#8, 0x34#8]) [0x30#8] ∧
  decode [0x11#8, 0x50#8, 0x01#8, 0x02#8] = .instr (.i2cRead 0x50#8 0x0102#16) [] ∧
  decode [0x20#8, 0x50#8, 0xF0#8, 0x00#8, 0x10#8] = .instr (.eeRead 0x50#8 0xF0#8 16#16) [] ∧
  decode [0x12#8, 0x50#8] = .badOp 0x12#8 [0x50#8]

/-- R29, R90: when the stream begins with a command's frame, the step is that command, with the frame taken from the
stream. -/
def Obligations.StepRunsDecodedFrame : Prop :=
  ∀ (s : State) (i : Instr) (rest : List Byte), i.wellFormed = true → s.stream = encode i ++ rest →
    step s = exec i { s with stream := rest }

/-- R106, R102: what the assembler accepts has a frame, its reserved bits are 0, and its frame decodes to it. -/
def Obligations.AssembledLinesDecode : Prop :=
  ∀ (l : AsmLine) (i : Instr) (rest : List Byte), assemble l = some i →
    i.wellFormed = true ∧ reservedClear i = true ∧ decode (encode i ++ rest) = .instr i rest

/-! ### Reset, the host's acts and the invariant -/

/-- R270, R35: reset sets CRC to INIT, STATUS to 0x00 and the transceiver to IDLE and leaves every device as it was;
the state after reset has cmd 0 and an empty HIST. -/
def Obligations.ResetValues : Prop :=
  (∀ s : State, (resetBlock s).crc = s.cfg.init ∧ (resetBlock s).status = 0x00#8 ∧ (resetBlock s).fsm = .idle ∧
    ∀ b, (resetBlock s).device b = s.device b) ∧
  State.reset.crc = 0x1F#5 ∧ State.reset.cfg.init = 0x1F#5 ∧ State.reset.status = 0x00#8 ∧
  State.reset.fsm = .idle ∧ State.reset.cmd = 0 ∧ State.reset.hist = []

/-- R278: while a frame is still to come, the host may put another device, or none, at an address; nothing else changes
but what the host still sends. That the swap is a step of its own, and may stand before the first command or right after
another act, is the model's choice (notes/assumptions/3.md, 22.md). -/
def Obligations.HostSwapReplacesOneDevice : Prop :=
  ∀ (s : State) (a : Addr7) (d : Option Device) (bs : List Byte) (ps : List Phase),
    s.stream = [] → s.phases = ⟨.swap a d, bs⟩ :: ps → ¬ ended s →
    ∃ t, step s = .next t ∧ t.device a = d ∧ OthersKept a s t ∧
      t = { s with dev := t.dev, stream := bs, phases := ps }

/-- Every step keeps the invariant: parameters in bounds, devices and memories in canonical form inside CAP, STATUS and
every response legal, the transceiver idle, one response per command, one event per transaction. -/
def Obligations.StepKeepsInvariant : Prop :=
  ∀ s t : State, Inv s → step s = .next t → Inv t

/-- The state after reset meets the invariant, and the launch premises CleanEntry and CapMatches of R275. -/
def Obligations.ResetMeetsInvariant : Prop := Inv State.reset ∧ CleanEntry State.reset ∧ CapMatches State.reset

/-! ### The byte-level transceiver -/

/-- R135, R132, R121: a transaction that completes at the byte level, with the devices of `s` at the other end, has an
outcome that the transaction level admits in `s`: never Ok at an absent address, and an Ok read has the bytes of R59.
Its outcome is Ok exactly when it reached STOP through a row of R131 marked "outcome Ok". What the device lets happen
on the bus is the model's reading of R121 and R59 (notes/assumptions/10.md). -/
def Obligations.ByteLevelOutcomesAreAdmitted : Prop :=
  (∀ (s : State) (tx : Tx) (es : List BusEvent) (r : FsmRun) (o : BusOutcome),
    busSteps s tx es .start = some r → r.completed o → tx.admits s o) ∧
  ∀ (tx : Tx) (es : List BusEvent) (r : FsmRun) (o : BusOutcome),
    fsmSteps tx es .start = some r → r.completed o →
    ((∃ bs, o = .ok bs) ↔
      ∃ es' e r', es = es' ++ [e, .stopDone] ∧ fsmSteps tx es' .start = some r' ∧ okRow tx r'.state e = true)

/-- R131, R134, R135: every outcome the transaction level admits in `s` is the outcome of some byte-level run with the
devices of `s` at the other end, and so is the outcome that the transaction has in `s`. That a controller fault
(UNKNOWN) ends in STOP is the model's reading of R134 (notes/assumptions/10.md). -/
def Obligations.ByteLevelRealisesEveryOutcome : Prop :=
  ∀ (s : State) (tx : Tx), tx.carries →
    tx.admits s (tx.perform s).1 ∧
    ∀ o, tx.admits s o → ∃ es r, busSteps s tx es .start = some r ∧ r.completed o

/-- R130, R131: an acknowledged write is START, the address byte with rw = 0, each data byte with its ACK, STOP; a read
is START, the address byte with rw = 1, the received bytes, all acknowledged but the last, STOP. -/
def Obligations.ByteLevelFraming : Prop :=
  (∀ (a : Addr7) (bs : List Byte), bs ≠ [] →
    ∃ r, fsmSteps (.write a bs) (.issue :: .ack :: (bs.map (fun _ => .ack) ++ [.stopDone])) .start = some r ∧
      r.completed (.ok []) ∧
      r.wire = .start :: .byte (a ++ 0#1) :: .ack :: (bs.flatMap (fun b => [.byte b, .ack]) ++ [.stop])) ∧
  ∀ (a : Addr7) (bs : List Byte) (b : Byte),
    ∃ r, fsmSteps (.read a (bs.length + 1)) (.issue :: .ack :: ((bs ++ [b]).map .byteIn ++ [.stopDone])) .start =
        some r ∧
      r.completed (.ok (bs ++ [b])) ∧
      r.wire = .start :: .byte (a ++ 1#1) :: .ack ::
        (bs.flatMap (fun b => [.byte b, .ack]) ++ [.byte b, .nack, .stop])

/-! ### The header decoder -/

/-- R211, R212: a field is present exactly when its range ends inside the image; the others are listed as skipped, in
table order, and none is exactly when the image has 128 bytes or more. -/
def Obligations.DecoderOmitsOutOfRangeFields : Prop :=
  ∀ (p : Params) (image : List Byte),
    (decodeHeader p image).1.serialNumberRaw.isSome = decide (21 ≤ image.length) ∧
    (decodeHeader p image).1.serialNumberAscii.isSome = decide (21 ≤ image.length) ∧
    (decodeHeader p image).1.productIdRaw.isSome = decide (25 ≤ image.length) ∧
    (decodeHeader p image).1.productIdAscii.isSome = decide (25 ≤ image.length) ∧
    (decodeHeader p image).1.bomVersion.isSome = decide (27 ≤ image.length) ∧
    (decodeHeader p image).1.pcbVersion.isSome = decide (29 ≤ image.length) ∧
    (decodeHeader p image).1.fixtureVersion.isSome = decide (31 ≤ image.length) ∧
    (decodeHeader p image).1.crc5FixtureHeader.isSome = decide (4 ≤ image.length) ∧
    (decodeHeader p image).1.crc5CgminerHeader.isSome = decide (64 ≤ image.length) ∧
    (decodeHeader p image).1.crc5ClassInfo.isSome = decide (128 ≤ image.length) ∧
    (∀ f, f ∈ (decodeHeader p image).2 ↔ image.length < f.last) ∧
    List.Sublist (decodeHeader p image).2 [.serialNumberRaw, .serialNumberAscii, .productIdRaw, .productIdAscii,
      .bomVersion, .pcbVersion, .fixtureVersion, .crc5FixtureHeader, .crc5CgminerHeader, .crc5ClassInfo] ∧
    ((decodeHeader p image).2 = [] ↔ 128 ≤ image.length)

/-- R219: the decoder reads only the first 128 bytes. -/
def Obligations.DecoderReadsFirst128Bytes : Prop :=
  ∀ (p : Params) (image : List Byte), 128 ≤ image.length → decodeHeader p image = decodeHeader p (image.take 128)

/-- R213, R214: where its range lies inside the image, a raw field is the image's bytes [4,21) or [21,25), and the ASCII
field beside it maps each of them to its printable character or to `?`. -/
def Obligations.DecoderMapsAsciiByteForByte : Prop :=
  ∀ (p : Params) (image : List Byte),
    (21 ≤ image.length → ∃ sr sa,
      (decodeHeader p image).1.serialNumberRaw = some sr ∧ (decodeHeader p image).1.serialNumberAscii = some sa ∧
      sr.length = 17 ∧ sa.length = 17 ∧
      ∀ k, k < 17 → sr[k]? = image[4 + k]? ∧ sa[k]? = (image[4 + k]?).map fun b =>
        if 32 ≤ b.toNat ∧ b.toNat ≤ 126 then Char.ofNat b.toNat else Char.ofNat 63) ∧
    (25 ≤ image.length → ∃ pr pa,
      (decodeHeader p image).1.productIdRaw = some pr ∧ (decodeHeader p image).1.productIdAscii = some pa ∧
      pr.length = 4 ∧ pa.length = 4 ∧
      ∀ k, k < 4 → pr[k]? = image[21 + k]? ∧ pa[k]? = (image[21 + k]?).map fun b =>
        if 32 ≤ b.toNat ∧ b.toNat ≤ 126 then Char.ofNat b.toNat else Char.ofNat 63)

/-- R215, R216, R13: where its range lies inside the image, a version field is its two bytes, high byte first, and
bom_version is also shown as exactly four hexadecimal digits, the most significant first, zero-padded, in the case of the
launch's HEX_CASE. R220: an image built with printable text at [4,25) and three big-endian words at 25, 27 and 29 decodes
to exactly that text and those words. -/
def Obligations.DecoderRoundTripsFields : Prop :=
  (∀ (p : Params) (image : List Byte),
    (decodeHeader p image).1.bomVersionText.isSome = decide (27 ≤ image.length) ∧
    ∀ hi lo : Byte,
      (image[25]? = some hi → image[26]? = some lo → ∃ v text,
        (decodeHeader p image).1.bomVersion = some v ∧ v.toNat = hi.toNat * 256 + lo.toNat ∧
        (decodeHeader p image).1.bomVersionText = some text ∧ text.length = 4 ∧
        ∀ k, k < 4 → text[k]? =
          (match p.hexCase with
            | .lower => "0123456789abcdef".toList
            | .upper => "0123456789ABCDEF".toList)[v.toNat / 16 ^ (3 - k) % 16]?) ∧
      (image[27]? = some hi → image[28]? = some lo → ∃ v,
        (decodeHeader p image).1.pcbVersion = some v ∧ v.toNat = hi.toNat * 256 + lo.toNat) ∧
      (image[29]? = some hi → image[30]? = some lo → ∃ v,
        (decodeHeader p image).1.fixtureVersion = some v ∧ v.toNat = hi.toNat * 256 + lo.toNat)) ∧
  ∀ (p : Params) (head serial product tail : List Byte) (v1 v2 v3 : BitVec 16),
    head.length = 4 → serial.length = 17 → product.length = 4 → tail.length = 225 →
    (∀ b ∈ serial ++ product, 32 ≤ b.toNat ∧ b.toNat ≤ 126) →
    let r := (decodeHeader p (head ++ serial ++ product ++
      [v1.extractLsb' 8 8, v1.extractLsb' 0 8, v2.extractLsb' 8 8, v2.extractLsb' 0 8,
        v3.extractLsb' 8 8, v3.extractLsb' 0 8] ++ tail)).1
    r.serialNumberRaw = some serial ∧ r.productIdRaw = some product ∧
    r.serialNumberAscii = some (serial.map fun b => Char.ofNat b.toNat) ∧
    r.productIdAscii = some (product.map fun b => Char.ofNat b.toNat) ∧
    r.bomVersion = some v1 ∧ r.pcbVersion = some v2 ∧ r.fixtureVersion = some v3

/-- R190, R217: where its range lies inside the image, each of the decoder's three checksums is crc5 of that range, and
what one CRC_MSG over it answers. -/
def Obligations.DecoderChecksumsAreCrcMessages : Prop :=
  ∀ (s : State) (image : List Byte),
    (4 ≤ image.length → ∃ c t b, (decodeHeader s.cfg image).1.crc5FixtureHeader = some c ∧
      c = crc5 s.cfg (image.take 4) ∧
      exec (.crcMsg (image.take 4)) s = .next t ∧ Reported s t 0x00#8 [b] ∧ b.toNat = c.toNat) ∧
    (64 ≤ image.length → ∃ c t b, (decodeHeader s.cfg image).1.crc5CgminerHeader = some c ∧
      c = crc5 s.cfg ((image.drop 4).take 60) ∧
      exec (.crcMsg ((image.drop 4).take 60)) s = .next t ∧ Reported s t 0x00#8 [b] ∧ b.toNat = c.toNat) ∧
    (128 ≤ image.length → ∃ c t b, (decodeHeader s.cfg image).1.crc5ClassInfo = some c ∧
      c = crc5 s.cfg ((image.drop 64).take 64) ∧
      exec (.crcMsg ((image.drop 64).take 64)) s = .next t ∧ Reported s t 0x00#8 [b] ∧ b.toNat = c.toNat)

/-- R152, R219 (program P3): reading the first 128 bytes of a device that holds an image gives bytes that decode as the
image does. -/
def Obligations.DecodeOfReadEqualsDecodeOfImage : Prop :=
  ∀ (s : State) (a : Byte) (image : List Byte) (d : Device), a.getLsbD 7 = false →
    128 ≤ s.cfg.maxXfer → 128 ≤ s.cfg.cap → ImageKnown (busAddr a) image s →
    s.device (busAddr a) = some d → d.wcp = false → ChannelReliable 2 s →
    ∃ t bs, exec (.eeRead a 0x00#8 128#16) s = .next t ∧ Reported s t 0x00#8 bs ∧ bs = image.take 128 ∧
      decodeHeader s.cfg bs = decodeHeader s.cfg image
end

