-- ==== Sys2Proof/Laws/Memory.lean ====
section
/-! SUPPORT. Keyed lists and device memory: what a lookup sees of each operation, that each keeps the canonical form,
and that memories in canonical form which read alike are equal. -/

namespace Sys2Proof.Laws

open Sys2Proof.Machine

/-! ### Lookup after an operation -/

section Keyed
variable {α : Type}

@[simp] theorem lookupKey_nil (k : Nat) : lookupKey k ([] : List (Nat × α)) = none := rfl

theorem lookupKey_cons (k : Nat) (e : Nat × α) (l : List (Nat × α)) :
    lookupKey k (e :: l) = if e.1 = k then some e.2 else lookupKey k l := rfl

theorem lookupKey_insertKey (j k : Nat) (v : α) (l : List (Nat × α)) :
    lookupKey j (insertKey k v l) = if j = k then some v else lookupKey j l := by
  induction l with
  | nil => simp [insertKey, lookupKey_cons, eq_comm]
  | cons e l ih =>
    simp only [insertKey]
    split
    · simp [lookupKey_cons, eq_comm]
    · split
      · rename_i h
        by_cases hj : j = k
        · subst hj; simp [lookupKey_cons]
        · have : ¬ k = j := fun h => hj h.symm
          have h' : ¬ e.1 = j := by omega
          simp [lookupKey_cons, hj, this, h']
      · rename_i h
        simp only [lookupKey_cons, ih]
        by_cases hj : j = k
        · subst hj; simp [h]
        · simp [hj]

theorem lookupKey_eraseKey (j k : Nat) (l : List (Nat × α)) :
    lookupKey j (eraseKey k l) = if j = k then none else lookupKey j l := by
  induction l with
  | nil => simp [eraseKey]
  | cons e l ih =>
    simp only [eraseKey, List.filter_cons] at ih ⊢
    by_cases he : e.1 = k
    · by_cases hj : j = k
      · simpa [he, hj] using ih
      · have : ¬ e.1 = j := by omega
        simpa [he, hj, lookupKey_cons, this, eq_comm] using ih
    · by_cases hj : j = k
      · simpa [he, hj, lookupKey_cons] using ih
      · simp_all [lookupKey_cons]

theorem lookupKey_adjustKey (j k : Nat) (f : α → α) (l : List (Nat × α)) :
    lookupKey j (adjustKey k f l) = if j = k then (lookupKey k l).map f else lookupKey j l := by
  induction l with
  | nil => simp [adjustKey]
  | cons e l ih =>
    simp only [adjustKey, List.map_cons] at ih ⊢
    by_cases he : e.1 = k
    · by_cases hj : j = k
      · simp [he, hj, lookupKey_cons]
      · have : ¬ k = j := fun h => hj h.symm
        simpa [he, hj, lookupKey_cons, this] using ih
    · by_cases hj : j = k
      · simpa [he, hj, lookupKey_cons] using ih
      · simp only [he, if_false, lookupKey_cons, hj] at ih ⊢
        rw [ih]

theorem lookupKey_map (k : Nat) (f : α → α) (l : List (Nat × α)) :
    lookupKey k (l.map fun e => (e.1, f e.2)) = (lookupKey k l).map f := by
  induction l with
  | nil => rfl
  | cons e l ih => by_cases h : e.1 = k <;> simp [lookupKey_cons, h, ih]

theorem adjustKey_absent (k : Nat) (f : α → α) (l : List (Nat × α)) (h : lookupKey k l = none) :
    adjustKey k f l = l := by
  induction l with
  | nil => rfl
  | cons e l ih =>
    rw [lookupKey_cons] at h
    split at h
    · simp at h
    · rename_i he
      simp only [adjustKey, List.map_cons, he, if_false] at ih ⊢
      rw [ih h]

theorem mem_of_lookupKey {k : Nat} {v : α} {l : List (Nat × α)} (h : lookupKey k l = some v) : (k, v) ∈ l := by
  induction l with
  | nil => simp at h
  | cons e l ih =>
    rw [lookupKey_cons] at h
    split at h
    · rename_i he
      cases h
      simp [← he]
    · simp [ih h]

theorem lookupKey_isSome_of_mem {e : Nat × α} {l : List (Nat × α)} (h : e ∈ l) : (lookupKey e.1 l).isSome := by
  induction l with
  | nil => simp at h
  | cons x l ih =>
    rw [lookupKey_cons]
    split
    · rfl
    · rename_i hx
      rcases List.mem_cons.mp h with h | h
      · exact absurd (by rw [h]) hx
      · exact ih h

/-! ### The canonical form -/

theorem keys_adjustKey (k : Nat) (f : α → α) (l : List (Nat × α)) :
    (adjustKey k f l).map Prod.fst = l.map Prod.fst := by
  simp only [adjustKey, List.map_map]
  apply List.map_congr_left
  intro e _
  by_cases h : e.1 = k <;> simp [h]

theorem keys_map (f : α → α) (l : List (Nat × α)) :
    (l.map fun e => (e.1, f e.2)).map Prod.fst = l.map Prod.fst := by
  simp

theorem keysRising_adjustKey {k : Nat} {f : α → α} {l : List (Nat × α)} (h : keysRising l) :
    keysRising (adjustKey k f l) := by
  rw [keysRising, keys_adjustKey]; exact h

theorem mem_adjustKey {k : Nat} {f : α → α} {l : List (Nat × α)} {e : Nat × α} (h : e ∈ adjustKey k f l) :
    e ∈ l ∨ ∃ x ∈ l, x.1 = k ∧ e = (x.1, f x.2) := by
  obtain ⟨x, hx, rfl⟩ := List.mem_map.mp h
  by_cases hk : x.1 = k
  · exact .inr ⟨x, hx, hk, by simp [hk]⟩
  · exact .inl (by simpa [hk] using hx)

theorem mem_insertKey {k : Nat} {v : α} {l : List (Nat × α)} {e : Nat × α} (h : e ∈ insertKey k v l) :
    e = (k, v) ∨ e ∈ l := by
  induction l with
  | nil => simpa [insertKey] using h
  | cons x l ih =>
    simp only [insertKey] at h
    split at h
    · simpa using h
    · split at h
      · rcases List.mem_cons.mp h with h | h
        · exact .inl h
        · exact .inr (List.mem_cons_of_mem _ h)
      · rcases List.mem_cons.mp h with h | h
        · exact .inr (by simp [h])
        · rcases ih h with h | h
          · exact .inl h
          · exact .inr (List.mem_cons_of_mem _ h)

theorem keysRising_cons {e : Nat × α} {l : List (Nat × α)} :
    keysRising (e :: l) ↔ (∀ x ∈ l, e.1 < x.1) ∧ keysRising l := by
  simp [keysRising]

theorem keysRising_insertKey {k : Nat} {v : α} {l : List (Nat × α)} (h : keysRising l) :
    keysRising (insertKey k v l) := by
  induction l with
  | nil => simp [insertKey, keysRising]
  | cons e l ih =>
    have h' := h
    rw [keysRising_cons] at h
    simp only [insertKey]
    split
    · rename_i hk
      rw [keysRising_cons]
      refine ⟨fun x hx => ?_, h'⟩
      rcases List.mem_cons.mp hx with rfl | hx
      · exact hk
      · exact Nat.lt_trans hk (h.1 x hx)
    · split
      · rename_i he
        rw [keysRising_cons]
        exact ⟨fun x hx => he ▸ h.1 x hx, h.2⟩
      · rename_i hk he
        rw [keysRising_cons]
        refine ⟨fun x hx => ?_, ih h.2⟩
        rcases mem_insertKey hx with rfl | hx
        · show e.1 < k
          omega
        · exact h.1 x hx

theorem keysRising_filter {p : Nat × α → Bool} {l : List (Nat × α)} (h : keysRising l) : keysRising (l.filter p) :=
  h.sublist (List.filter_sublist.map Prod.fst)

theorem keysRising_eraseKey {k : Nat} {l : List (Nat × α)} (h : keysRising l) : keysRising (eraseKey k l) :=
  keysRising_filter h

theorem mem_eraseKey {k : Nat} {l : List (Nat × α)} {e : Nat × α} (h : e ∈ eraseKey k l) : e ∈ l :=
  (List.mem_filter.mp h).1

theorem lookupKey_of_mem {e : Nat × α} {l : List (Nat × α)} (hs : keysRising l) (h : e ∈ l) :
    lookupKey e.1 l = some e.2 := by
  induction l with
  | nil => simp at h
  | cons x l ih =>
    rw [keysRising_cons] at hs
    rw [lookupKey_cons]
    rcases List.mem_cons.mp h with rfl | h
    · simp
    · have := hs.1 e h
      rw [if_neg (by omega), ih hs.2 h]

/-- Lists with rising keys and the same lookups are equal. -/
theorem keysRising_ext {l m : List (Nat × α)} (hl : keysRising l) (hm : keysRising m)
    (h : ∀ k, lookupKey k l = lookupKey k m) : l = m := by
  induction l generalizing m with
  | nil =>
    cases m with
    | nil => rfl
    | cons e m => simpa [lookupKey_cons] using h e.1
  | cons e l ih =>
    cases m with
    | nil => simpa [lookupKey_cons] using h e.1
    | cons x m =>
      rw [keysRising_cons] at hl hm
      have hex : e.1 = x.1 := by
        have h1 := h e.1
        have h2 := h x.1
        rw [lookupKey_cons, if_pos rfl, lookupKey_cons] at h1
        rw [lookupKey_cons, lookupKey_cons, if_pos rfl] at h2
        rcases Nat.lt_trichotomy e.1 x.1 with lt | eq | gt
        · rw [if_neg (by omega)] at h1
          have := hm.1 _ (mem_of_lookupKey h1.symm)
          simp at this; omega
        · exact eq
        · rw [if_neg (by omega)] at h2
          have := hl.1 _ (mem_of_lookupKey h2)
          simp at this; omega
      have hv : e.2 = x.2 := by
        have h1 := h e.1
        rw [lookupKey_cons, if_pos rfl, lookupKey_cons, if_pos hex.symm] at h1
        exact Option.some.inj h1
      have : e = x := Prod.ext hex hv
      subst this
      congr 1
      refine ih hl.2 hm.2 fun k => ?_
      by_cases hk : e.1 = k
      · have hn : ∀ {t : List (Nat × α)}, (∀ y ∈ t, e.1 < y.1) → lookupKey k t = none := by
          intro t ht
          cases hc : lookupKey k t with
          | none => rfl
          | some v =>
            have := ht _ (mem_of_lookupKey hc)
            simp at this; omega
        rw [hn hl.1, hn hm.1]
      · simpa [lookupKey_cons, hk] using h k

end Keyed

/-! ### Device memory -/

/-- A read after a write gives the byte written at its offset and the old byte elsewhere. -/
theorem Memory.read_write (m : Memory) (o x : Nat) (v : Byte) :
    Memory.read (Memory.write m o v) x = if x = o then v else Memory.read m x := by
  unfold Memory.read Memory.write
  by_cases hv : v = Memory.unlisted
  · rw [if_pos hv, lookupKey_eraseKey]
    by_cases hx : x = o <;> simp [hx, hv]
  · rw [if_neg hv, lookupKey_insertKey]
    by_cases hx : x = o <;> simp [hx]

theorem lookupKey_fillMap (f : Nat → Byte) (x : Nat) (l : List Nat) :
    lookupKey x (l.filterMap fun o => if f o = Memory.unlisted then none else some (o, f o)) =
      if x ∈ l ∧ f x ≠ Memory.unlisted then some (f x) else none := by
  induction l with
  | nil => simp
  | cons o l ih =>
    by_cases ho : f o = Memory.unlisted
    · rw [List.filterMap_cons_none (by simp [ho]), ih]
      by_cases hx : x = o
      · subst hx; simp [ho]
      · simp [hx]
    · rw [List.filterMap_cons_some (b := (o, f o)) (by simp [ho]), lookupKey_cons, ih]
      by_cases hx : o = x
      · subst hx; simp [ho]
      · have : ¬ x = o := fun h => hx h.symm
        simp [hx, this]

theorem Memory.read_fill (cap x : Nat) (f : Nat → Byte) (h : x < cap) : Memory.read (Memory.fill cap f) x = f x := by
  unfold Memory.read Memory.fill
  rw [lookupKey_fillMap]
  by_cases hf : f x = Memory.unlisted
  · simp [hf]
  · simp [hf, h]

theorem Memory.canonical_write {m : Memory} (o : Nat) (v : Byte) (h : Memory.canonical m) :
    Memory.canonical (Memory.write m o v) := by
  unfold Memory.write
  by_cases hv : v = Memory.unlisted
  · rw [if_pos hv]
    exact ⟨keysRising_eraseKey h.1, fun c hc => h.2 c (mem_eraseKey hc)⟩
  · rw [if_neg hv]
    refine ⟨keysRising_insertKey h.1, fun c hc => ?_⟩
    rcases mem_insertKey hc with rfl | hc
    · exact hv
    · exact h.2 c hc

theorem Memory.within_write {cap : Nat} {m : Memory} (o : Nat) (v : Byte) (h : Memory.within cap m) (ho : o < cap) :
    Memory.within cap (Memory.write m o v) := by
  intro c hc
  unfold Memory.write at hc
  split at hc
  · exact h c (mem_eraseKey hc)
  · rcases mem_insertKey hc with rfl | hc
    · exact ho
    · exact h c hc

theorem Memory.wf_write {cap : Nat} {m : Memory} (o : Nat) (v : Byte) (h : Memory.wf cap m) (ho : o < cap) :
    Memory.wf cap (Memory.write m o v) :=
  ⟨Memory.canonical_write o v h.1, Memory.within_write o v h.2 ho⟩

/-- A listed byte of a filled memory stands below `cap`, and is not what an unlisted offset reads as. -/
theorem Memory.mem_fill {cap : Nat} {f : Nat → Byte} {c : Nat × Byte} (hc : c ∈ Memory.fill cap f) :
    c.1 < cap ∧ c.2 ≠ Memory.unlisted := by
  obtain ⟨o, ho, hc⟩ := List.mem_filterMap.mp hc
  by_cases hf : f o = Memory.unlisted
  · simp [hf] at hc
  · rw [if_neg hf] at hc
    cases hc
    exact ⟨List.mem_range.mp ho, hf⟩

theorem Memory.wf_fill (cap : Nat) (f : Nat → Byte) : Memory.wf cap (Memory.fill cap f) := by
  refine ⟨⟨?_, fun c hc => (Memory.mem_fill hc).2⟩, fun c hc => (Memory.mem_fill hc).1⟩
  have hk : ∀ l : List Nat, l.Pairwise (· < ·) →
      keysRising (l.filterMap fun o => if f o = Memory.unlisted then none else some (o, f o)) := by
    intro l hl
    refine hl.sublist ?_
    induction l with
    | nil => exact List.Sublist.refl _
    | cons o l ih =>
      have := ih (List.pairwise_cons.mp hl).2
      by_cases ho : f o = Memory.unlisted
      · rw [List.filterMap_cons_none (by simp [ho])]
        exact this.cons _
      · rw [List.filterMap_cons_some (b := (o, f o)) (by simp [ho])]
        exact this.cons_cons _
  exact hk _ List.pairwise_lt_range

theorem Memory.lookup_eq_of_canonical {m : Memory} (h : Memory.canonical m) (o : Nat) :
    lookupKey o m = if Memory.read m o = Memory.unlisted then none else some (Memory.read m o) := by
  unfold Memory.read
  cases hc : lookupKey o m with
  | none => simp
  | some v => simpa using h.2 _ (mem_of_lookupKey hc)

theorem Memory.lookup_eq_none_of_within {cap : Nat} {m : Memory} (h : Memory.within cap m) {o : Nat} (ho : ¬ o < cap) :
    lookupKey o m = none := by
  cases hc : lookupKey o m with
  | none => rfl
  | some v => exact absurd (h _ (mem_of_lookupKey hc)) ho

/-- Memories in canonical form that read alike are the same data. -/
theorem Memory.wf_ext {cap : Nat} {m m' : Memory} (h : Memory.wf cap m) (h' : Memory.wf cap m')
    (hr : ∀ o, o < cap → Memory.read m o = Memory.read m' o) : m = m' := by
  refine keysRising_ext h.1.1 h'.1.1 fun o => ?_
  by_cases ho : o < cap
  · rw [Memory.lookup_eq_of_canonical h.1, Memory.lookup_eq_of_canonical h'.1, hr o ho]
  · rw [Memory.lookup_eq_none_of_within h.2 ho, Memory.lookup_eq_none_of_within h'.2 ho]

end Sys2Proof.Laws
end

