-- ==== Sys2Proof/Laws/State.lean ====
section
/-! SUPPORT. What each update of the state does to each field: one lemma per field per update. -/

namespace Sys2Proof.Laws

open Sys2Proof.Machine

/-! ### respond -/

@[simp] theorem respond_crc (st : Byte) (data : List Byte) (s : State) : (respond st data s).crc = s.crc := rfl
@[simp] theorem respond_status (st : Byte) (data : List Byte) (s : State) : (respond st data s).status = st := rfl
@[simp] theorem respond_cmd (st : Byte) (data : List Byte) (s : State) : (respond st data s).cmd = s.cmd + 1 := rfl
@[simp] theorem respond_dev (st : Byte) (data : List Byte) (s : State) : (respond st data s).dev = s.dev := rfl
@[simp] theorem respond_hist (st : Byte) (data : List Byte) (s : State) : (respond st data s).hist = s.hist := rfl
@[simp] theorem respond_fsm (st : Byte) (data : List Byte) (s : State) : (respond st data s).fsm = s.fsm := rfl
@[simp] theorem respond_rsps (st : Byte) (data : List Byte) (s : State) : (respond st data s).rsps = s.rsps ++ [⟨st, data⟩] := rfl
@[simp] theorem respond_cfg (st : Byte) (data : List Byte) (s : State) : (respond st data s).cfg = s.cfg := rfl
@[simp] theorem respond_stream (st : Byte) (data : List Byte) (s : State) : (respond st data s).stream = s.stream := rfl
@[simp] theorem respond_phases (st : Byte) (data : List Byte) (s : State) : (respond st data s).phases = s.phases := rfl
@[simp] theorem respond_chan (st : Byte) (data : List Byte) (s : State) : (respond st data s).chan = s.chan := rfl
@[simp] theorem respond_tx (st : Byte) (data : List Byte) (s : State) : (respond st data s).tx = s.tx := rfl

/-! ### withCrc -/

@[simp] theorem withCrc_crc (s : State) (c : Crc) : (s.withCrc c).crc = c := rfl
@[simp] theorem withCrc_status (s : State) (c : Crc) : (s.withCrc c).status = s.status := rfl
@[simp] theorem withCrc_cmd (s : State) (c : Crc) : (s.withCrc c).cmd = s.cmd := rfl
@[simp] theorem withCrc_dev (s : State) (c : Crc) : (s.withCrc c).dev = s.dev := rfl
@[simp] theorem withCrc_hist (s : State) (c : Crc) : (s.withCrc c).hist = s.hist := rfl
@[simp] theorem withCrc_fsm (s : State) (c : Crc) : (s.withCrc c).fsm = s.fsm := rfl
@[simp] theorem withCrc_rsps (s : State) (c : Crc) : (s.withCrc c).rsps = s.rsps := rfl
@[simp] theorem withCrc_cfg (s : State) (c : Crc) : (s.withCrc c).cfg = s.cfg := rfl
@[simp] theorem withCrc_stream (s : State) (c : Crc) : (s.withCrc c).stream = s.stream := rfl
@[simp] theorem withCrc_phases (s : State) (c : Crc) : (s.withCrc c).phases = s.phases := rfl
@[simp] theorem withCrc_chan (s : State) (c : Crc) : (s.withCrc c).chan = s.chan := rfl
@[simp] theorem withCrc_tx (s : State) (c : Crc) : (s.withCrc c).tx = s.tx := rfl

/-! ### completeTx -/

@[simp] theorem completeTx_crc (a : Addr7) (f : Device → Device) (e : Event) (s : State) : (completeTx a f e s).crc = s.crc := rfl
@[simp] theorem completeTx_status (a : Addr7) (f : Device → Device) (e : Event) (s : State) : (completeTx a f e s).status = s.status := rfl
@[simp] theorem completeTx_cmd (a : Addr7) (f : Device → Device) (e : Event) (s : State) : (completeTx a f e s).cmd = s.cmd := rfl
@[simp] theorem completeTx_dev (a : Addr7) (f : Device → Device) (e : Event) (s : State) : (completeTx a f e s).dev = adjustKey a.toNat f s.dev := rfl
@[simp] theorem completeTx_hist (a : Addr7) (f : Device → Device) (e : Event) (s : State) : (completeTx a f e s).hist = s.hist ++ [e] := rfl
@[simp] theorem completeTx_fsm (a : Addr7) (f : Device → Device) (e : Event) (s : State) : (completeTx a f e s).fsm = .idle := rfl
@[simp] theorem completeTx_rsps (a : Addr7) (f : Device → Device) (e : Event) (s : State) : (completeTx a f e s).rsps = s.rsps := rfl
@[simp] theorem completeTx_cfg (a : Addr7) (f : Device → Device) (e : Event) (s : State) : (completeTx a f e s).cfg = s.cfg := rfl
@[simp] theorem completeTx_stream (a : Addr7) (f : Device → Device) (e : Event) (s : State) : (completeTx a f e s).stream = s.stream := rfl
@[simp] theorem completeTx_phases (a : Addr7) (f : Device → Device) (e : Event) (s : State) : (completeTx a f e s).phases = s.phases := rfl
@[simp] theorem completeTx_chan (a : Addr7) (f : Device → Device) (e : Event) (s : State) : (completeTx a f e s).chan = s.chan.tail := rfl
@[simp] theorem completeTx_tx (a : Addr7) (f : Device → Device) (e : Event) (s : State) : (completeTx a f e s).tx = s.tx + 1 := rfl

/-! ### waitWriteCycle -/

@[simp] theorem waitWriteCycle_crc (s : State) : (waitWriteCycle s).crc = s.crc := rfl
@[simp] theorem waitWriteCycle_status (s : State) : (waitWriteCycle s).status = s.status := rfl
@[simp] theorem waitWriteCycle_cmd (s : State) : (waitWriteCycle s).cmd = s.cmd := rfl
@[simp] theorem waitWriteCycle_dev (s : State) : (waitWriteCycle s).dev = s.dev.map fun e => (e.1, e.2.rest) := rfl
@[simp] theorem waitWriteCycle_hist (s : State) : (waitWriteCycle s).hist = s.hist ++ [.delay] := rfl
@[simp] theorem waitWriteCycle_fsm (s : State) : (waitWriteCycle s).fsm = s.fsm := rfl
@[simp] theorem waitWriteCycle_rsps (s : State) : (waitWriteCycle s).rsps = s.rsps := rfl
@[simp] theorem waitWriteCycle_cfg (s : State) : (waitWriteCycle s).cfg = s.cfg := rfl
@[simp] theorem waitWriteCycle_stream (s : State) : (waitWriteCycle s).stream = s.stream := rfl
@[simp] theorem waitWriteCycle_phases (s : State) : (waitWriteCycle s).phases = s.phases := rfl
@[simp] theorem waitWriteCycle_chan (s : State) : (waitWriteCycle s).chan = s.chan := rfl
@[simp] theorem waitWriteCycle_tx (s : State) : (waitWriteCycle s).tx = s.tx := rfl

/-! ### resetBlock -/

@[simp] theorem resetBlock_crc (s : State) : (resetBlock s).crc = s.cfg.init := rfl
@[simp] theorem resetBlock_status (s : State) : (resetBlock s).status = statusOk := rfl
@[simp] theorem resetBlock_cmd (s : State) : (resetBlock s).cmd = s.cmd := rfl
@[simp] theorem resetBlock_dev (s : State) : (resetBlock s).dev = s.dev := rfl
@[simp] theorem resetBlock_hist (s : State) : (resetBlock s).hist = s.hist := rfl
@[simp] theorem resetBlock_fsm (s : State) : (resetBlock s).fsm = .idle := rfl
@[simp] theorem resetBlock_rsps (s : State) : (resetBlock s).rsps = s.rsps := rfl
@[simp] theorem resetBlock_cfg (s : State) : (resetBlock s).cfg = s.cfg := rfl
@[simp] theorem resetBlock_stream (s : State) : (resetBlock s).stream = s.stream := rfl
@[simp] theorem resetBlock_phases (s : State) : (resetBlock s).phases = s.phases := rfl
@[simp] theorem resetBlock_chan (s : State) : (resetBlock s).chan = s.chan := rfl
@[simp] theorem resetBlock_tx (s : State) : (resetBlock s).tx = s.tx := rfl

/-! ### withStream -/

@[simp] theorem withStream_crc (s : State) (bs : List Byte) : (s.withStream bs).crc = s.crc := rfl
@[simp] theorem withStream_status (s : State) (bs : List Byte) : (s.withStream bs).status = s.status := rfl
@[simp] theorem withStream_cmd (s : State) (bs : List Byte) : (s.withStream bs).cmd = s.cmd := rfl
@[simp] theorem withStream_dev (s : State) (bs : List Byte) : (s.withStream bs).dev = s.dev := rfl
@[simp] theorem withStream_hist (s : State) (bs : List Byte) : (s.withStream bs).hist = s.hist := rfl
@[simp] theorem withStream_fsm (s : State) (bs : List Byte) : (s.withStream bs).fsm = s.fsm := rfl
@[simp] theorem withStream_rsps (s : State) (bs : List Byte) : (s.withStream bs).rsps = s.rsps := rfl
@[simp] theorem withStream_cfg (s : State) (bs : List Byte) : (s.withStream bs).cfg = s.cfg := rfl
@[simp] theorem withStream_stream (s : State) (bs : List Byte) : (s.withStream bs).stream = bs := rfl
@[simp] theorem withStream_phases (s : State) (bs : List Byte) : (s.withStream bs).phases = s.phases := rfl
@[simp] theorem withStream_chan (s : State) (bs : List Byte) : (s.withStream bs).chan = s.chan := rfl
@[simp] theorem withStream_tx (s : State) (bs : List Byte) : (s.withStream bs).tx = s.tx := rfl

/-! ### deliver -/

@[simp] theorem deliver_crc (s : State) (bs : List Byte) : (s.deliver bs).crc = s.crc := rfl
@[simp] theorem deliver_status (s : State) (bs : List Byte) : (s.deliver bs).status = s.status := rfl
@[simp] theorem deliver_cmd (s : State) (bs : List Byte) : (s.deliver bs).cmd = s.cmd := rfl
@[simp] theorem deliver_dev (s : State) (bs : List Byte) : (s.deliver bs).dev = s.dev := rfl
@[simp] theorem deliver_hist (s : State) (bs : List Byte) : (s.deliver bs).hist = s.hist := rfl
@[simp] theorem deliver_fsm (s : State) (bs : List Byte) : (s.deliver bs).fsm = s.fsm := rfl
@[simp] theorem deliver_rsps (s : State) (bs : List Byte) : (s.deliver bs).rsps = s.rsps := rfl
@[simp] theorem deliver_cfg (s : State) (bs : List Byte) : (s.deliver bs).cfg = s.cfg := rfl
@[simp] theorem deliver_stream (s : State) (bs : List Byte) : (s.deliver bs).stream = bs ++ s.stream := rfl
@[simp] theorem deliver_phases (s : State) (bs : List Byte) : (s.deliver bs).phases = s.phases := rfl
@[simp] theorem deliver_chan (s : State) (bs : List Byte) : (s.deliver bs).chan = s.chan := rfl
@[simp] theorem deliver_tx (s : State) (bs : List Byte) : (s.deliver bs).tx = s.tx := rfl

end Sys2Proof.Laws
end

