-- ==== Sys2Proof/Laws/Channel.lean ====
section
/-! SUPPORT. What the device map, the draws and the memories look like after each shared operation, and everything the
channel operations of one command can do. -/

namespace Sys2Proof.Laws

open Sys2Proof.Machine

/-! ### DEV and the draws after an operation -/

@[simp] theorem device_respond (st : Byte) (data : List Byte) (s : State) (b : Addr7) :
    (respond st data s).device b = s.device b := rfl

@[simp] theorem device_withCrc (s : State) (c : Crc) (b : Addr7) : (s.withCrc c).device b = s.device b := rfl

@[simp] theorem device_withStream (s : State) (bs : List Byte) (b : Addr7) :
    (s.withStream bs).device b = s.device b := rfl

@[simp] theorem device_resetBlock (s : State) (b : Addr7) : (resetBlock s).device b = s.device b := rfl

@[simp] theorem draw_respond (st : Byte) (data : List Byte) (s : State) (k : Nat) :
    (respond st data s).draw k = s.draw k := rfl

@[simp] theorem draw_withCrc (s : State) (c : Crc) (k : Nat) : (s.withCrc c).draw k = s.draw k := rfl

@[simp] theorem draw_waitWriteCycle (s : State) (k : Nat) : (waitWriteCycle s).draw k = s.draw k := rfl

theorem device_completeTx (a b : Addr7) (f : Device → Device) (e : Event) (s : State) :
    (completeTx a f e s).device b = if b = a then (s.device a).map f else s.device b := by
  unfold State.device
  rw [completeTx_dev, lookupKey_adjustKey]
  simp only [BitVec.toNat_inj]

@[simp] theorem device_completeTx_self (a : Addr7) (f : Device → Device) (e : Event) (s : State) :
    (completeTx a f e s).device a = (s.device a).map f := by
  rw [device_completeTx, if_pos rfl]

theorem device_completeTx_other {a b : Addr7} (f : Device → Device) (e : Event) (s : State) (h : b ≠ a) :
    (completeTx a f e s).device b = s.device b := by
  rw [device_completeTx, if_neg h]

@[simp] theorem draw_completeTx (a : Addr7) (f : Device → Device) (e : Event) (s : State) (k : Nat) :
    (completeTx a f e s).draw k = s.draw (k + 1) := by
  have h : s.tx + 1 + k = s.tx + (k + 1) := by omega
  simp [State.draw, h]

@[simp] theorem device_waitWriteCycle (s : State) (b : Addr7) :
    (waitWriteCycle s).device b = (s.device b).map Device.rest := by
  unfold State.device
  rw [waitWriteCycle_dev, lookupKey_map]

/-- A transaction with an absent address changes no device (R61). -/
theorem completeTx_dev_absent {a : Addr7} (f : Device → Device) (e : Event) {s : State} (h : s.device a = none) :
    (completeTx a f e s).dev = s.dev := by
  rw [completeTx_dev, adjustKey_absent _ _ _ h]

theorem waitWriteCycle_domain (s : State) : (waitWriteCycle s).dev.map Prod.fst = s.dev.map Prod.fst := by
  rw [waitWriteCycle_dev, keys_map]

theorem completeTx_domain (a : Addr7) (f : Device → Device) (e : Event) (s : State) :
    (completeTx a f e s).dev.map Prod.fst = s.dev.map Prod.fst := by
  rw [completeTx_dev, keys_adjustKey]

/-- R278: what DEV holds after a swap. -/
theorem lookup_swapDevice (a b : Addr7) (d : Option Device) (dev : List (Nat × Device)) :
    lookupKey b.toNat (swapDevice a d dev) = if b = a then d else lookupKey b.toNat dev := by
  cases d with
  | none => simp [swapDevice, lookupKey_eraseKey, BitVec.toNat_inj]
  | some d => simp [swapDevice, lookupKey_insertKey, BitVec.toNat_inj]

/-! ### The two transactions -/

theorem i2cWrite_fst (a : Addr7) (bs : List Byte) (s : State) :
    (i2cWrite a bs s).1 = writeOutcome (s.draw 0) (s.device a) := rfl

theorem i2cWrite_snd (a : Addr7) (bs : List Byte) (s : State) :
    (i2cWrite a bs s).2 =
      completeTx a (Device.afterWrite s.cfg.cap s.tx bs (writeOutcome (s.draw 0) (s.device a)))
        (.txW a bs (writeOutcome (s.draw 0) (s.device a))) s := rfl

theorem i2cRead_fst (a : Addr7) (n : Nat) (s : State) :
    (i2cRead a n s).1 = readOutcome s.cfg s.tx n (s.draw 0) (s.device a) := rfl

theorem i2cRead_snd (a : Addr7) (n : Nat) (s : State) :
    (i2cRead a n s).2 =
      completeTx a (Device.afterRead s.cfg.cap s.tx)
        (.txR a n (readOutcome s.cfg s.tx n (s.draw 0) (s.device a))) s := rfl

@[simp] theorem writeOutcome_absent (x : TxDraw) : writeOutcome x none = .err x.cause := rfl

@[simp] theorem readOutcome_absent (p : Params) (t n : Nat) (x : TxDraw) :
    readOutcome p t n x none = .err x.cause := rfl

theorem writeOutcome_idle (x : TxDraw) {d : Device} (h : d.wcp = false) :
    writeOutcome x (some d) = if x.ok then .ok else .err x.cause := by
  simp [writeOutcome, drawSucceeds, h]

theorem readOutcome_idle (p : Params) (t n : Nat) (x : TxDraw) {d : Device} (h : d.wcp = false) :
    readOutcome p t n x (some d) = if x.ok then .ok (d.readBytes p t n) else .err x.cause := by
  simp [readOutcome, drawSucceeds, h]

theorem writeOutcome_busy (x : TxDraw) {d : Device} (h : d.wcp = true) :
    writeOutcome x (some d) = if x.okInHazard then .ok else .err x.cause := by
  simp [writeOutcome, drawSucceeds, h]

theorem readOutcome_busy (p : Params) (t n : Nat) (x : TxDraw) {d : Device} (h : d.wcp = true) :
    readOutcome p t n x (some d) = if x.okInHazard then .ok (d.readBytes p t n) else .err x.cause := by
  simp [readOutcome, drawSucceeds, h]

@[simp] theorem readBytes_length (p : Params) (t n : Nat) (d : Device) : (d.readBytes p t n).length = n := by
  simp [Device.readBytes]

/-- An Ok read has exactly as many bytes as were asked for (R59). -/
theorem readOutcome_length {p : Params} {t n : Nat} {x : TxDraw} {d : Option Device} {bs : List Byte}
    (h : readOutcome p t n x d = .ok bs) : bs.length = n := by
  cases d with
  | none => simp at h
  | some d =>
    simp only [readOutcome] at h
    split at h
    · cases h; simp
    · cases h

/-! ### The device effects keep the memory's canonical form and the write-cycle flag's rule -/

theorem Device.wf_afterWrite {cap t : Nat} {bs : List Byte} {r : WriteOutcome} {d : Device}
    (h : Memory.wf cap d.mem) : Memory.wf cap (d.afterWrite cap t bs r).mem := by
  unfold Device.afterWrite
  split
  · exact Memory.wf_fill cap _
  · cases r with
    | ok =>
      show Memory.wf cap (d.writeOk cap t bs).mem
      unfold Device.writeOk
      split
      · exact h
      · split
        · rename_i ho
          exact Memory.wf_write _ _ h ho
        · exact Memory.wf_fill cap _
      · exact Memory.wf_fill cap _
    | err c =>
      show Memory.wf cap (d.writeErr cap t bs).mem
      unfold Device.writeErr
      split
      · exact h
      · split
        · rename_i ho
          exact Memory.wf_write _ _ h ho
        · exact Memory.wf_fill cap _
      · exact Memory.wf_fill cap _

theorem Device.wf_afterRead {cap t : Nat} {d : Device} (h : Memory.wf cap d.mem) :
    Memory.wf cap (d.afterRead cap t).mem := by
  unfold Device.afterRead
  split
  · exact Memory.wf_fill cap _
  · exact h

/-- No transaction clears WCP (R62, R63). -/
theorem Device.afterWrite_wcp {cap t : Nat} {bs : List Byte} {r : WriteOutcome} {d : Device} (h : d.wcp = true) :
    (d.afterWrite cap t bs r).wcp = true := by
  simp [Device.afterWrite, h, Device.havoc]

theorem Device.afterRead_wcp (cap t : Nat) (d : Device) : (d.afterRead cap t).wcp = d.wcp := by
  unfold Device.afterRead
  split <;> rfl

/-- R282: no transaction changes the device's own write-cycle time. -/
@[simp] theorem Device.afterWrite_cycle (cap t : Nat) (bs : List Byte) (r : WriteOutcome) (d : Device) :
    (d.afterWrite cap t bs r).cycle = d.cycle := by
  unfold Device.afterWrite Device.writeOk Device.writeErr
  split
  · rfl
  · split <;> split <;> (try split) <;> rfl

@[simp] theorem Device.afterRead_cycle (cap t : Nat) (d : Device) : (d.afterRead cap t).cycle = d.cycle := by
  unfold Device.afterRead
  split <;> rfl

/-! ### Everything the channel operations of a command can do -/

/-- `t` is reached from `s` by transactions and Delays. -/
inductive BusRun : State → State → Prop where
  | refl (s : State) : BusRun s s
  | write {s t : State} (a : Addr7) (bs : List Byte) (h : BusRun s t) : BusRun s (i2cWrite a bs t).2
  | read {s t : State} (a : Addr7) (n : Nat) (h : BusRun s t) : BusRun s (i2cRead a n t).2
  | wait {s t : State} (h : BusRun s t) : BusRun s (waitWriteCycle t)

theorem BusRun.eeWriteLoop {s : State} (a : Addr7) (d : List Byte) :
    ∀ {t : State} (o : Nat), BusRun s t → BusRun s (eeWriteLoop a o d t).2 := by
  induction d with
  | nil => intro t o h; exact h
  | cons v vs ih =>
    intro t o h
    have hw := BusRun.write a [offsetByte o, v] h
    unfold Machine.eeWriteLoop
    split
    · rename_i t' ht
      rw [ht] at hw
      exact ih (o + 1) (.wait hw)
    · rename_i c t' ht
      rw [ht] at hw
      exact hw

/-- The fields no channel operation touches. -/
theorem BusRun.kept {s t : State} (h : BusRun s t) :
    t.crc = s.crc ∧ t.status = s.status ∧ t.cmd = s.cmd ∧ t.rsps = s.rsps ∧ t.cfg = s.cfg ∧
      t.stream = s.stream ∧ t.phases = s.phases := by
  induction h with
  | refl => simp
  | write a bs _ ih => simpa [i2cWrite_snd] using ih
  | read a n _ ih => simpa [i2cRead_snd] using ih
  | wait _ ih => simpa using ih

/-- R30: no channel operation changes which devices are present. -/
theorem BusRun.domain {s t : State} (h : BusRun s t) : t.dev.map Prod.fst = s.dev.map Prod.fst := by
  induction h with
  | refl => rfl
  | write a bs _ ih => rw [i2cWrite_snd, completeTx_domain, ih]
  | read a n _ ih => rw [i2cRead_snd, completeTx_domain, ih]
  | wait _ ih => rw [waitWriteCycle_domain, ih]

/-- R282: no channel operation changes a device's own write-cycle time. -/
theorem BusRun.cycle {s t : State} (h : BusRun s t) (b : Addr7) :
    (t.device b).map Device.cycle = (s.device b).map Device.cycle := by
  induction h with
  | refl => rfl
  | write a bs _ ih =>
    rw [i2cWrite_snd, device_completeTx, ← ih]
    split
    · rename_i hb
      subst hb
      rw [Option.map_map]
      congr 1
      funext d
      exact Device.afterWrite_cycle ..
    · rfl
  | read a n _ ih =>
    rw [i2cRead_snd, device_completeTx, ← ih]
    split
    · rename_i hb
      subst hb
      rw [Option.map_map]
      congr 1
      funext d
      exact Device.afterRead_cycle ..
    · rfl
  | wait _ ih =>
    rw [device_waitWriteCycle, ← ih, Option.map_map]
    rfl

end Sys2Proof.Laws
end

