-- ==== Sys2Proof/Laws/Commands.lean ====
section
/-! SUPPORT. Everything a command can do, once: it performs channel operations, may write the CRC register, and ends by
giving one response. -/

namespace Sys2Proof.Laws

open Sys2Proof.Machine

@[simp] theorem finish_eq (data : List Byte) (s : State) : finish data s = .next (respond statusOk data s) := rfl

@[simp] theorem raise_eq (e : Error) (s : State) : raise e s = .next (respond e.status [] s) := rfl

/-- The STATUS and the data of a command's end: OK with any data, or an error with none (R27, R241). -/
def EndsWith (st : Byte) (data : List Byte) : Prop := st = statusOk ∨ (data = [] ∧ ∃ e : Error, st = e.status)

theorem EndsWith.ok (data : List Byte) : EndsWith statusOk data := .inl rfl

theorem EndsWith.error (e : Error) : EndsWith e.status [] := .inr ⟨rfl, e, rfl⟩

/-- A command that leaves the CRC register alone. -/
def BusCommand (s : State) (r : Result) : Prop :=
  ∃ st data t, BusRun s t ∧ EndsWith st data ∧ r = .next (respond st data t)

theorem BusCommand.finish {s t : State} (data : List Byte) (h : BusRun s t) : BusCommand s (finish data t) :=
  ⟨_, data, t, h, .ok data, rfl⟩

theorem BusCommand.raise {s t : State} (e : Error) (h : BusRun s t) : BusCommand s (raise e t) :=
  ⟨_, [], t, h, .error e, rfl⟩

theorem BusCommand.finishRead {s t : State} (r : ReadOutcome) (h : BusRun s t) : BusCommand s (finishRead (r, t)) := by
  cases r with
  | ok bs => exact .finish bs h
  | err c => exact .raise _ h

theorem execI2cWrite_bus (a : Byte) (d : List Byte) (s : State) : BusCommand s (execI2cWrite a d s) := by
  unfold execI2cWrite
  split
  · exact .raise _ (.refl s)
  · split
    · exact .raise _ (.refl s)
    · have h := BusRun.write (busAddr a) d (.refl s)
      split
      · rename_i t ht; rw [ht] at h; exact .finish _ h
      · rename_i c t ht; rw [ht] at h; exact .raise _ h

theorem execI2cRead_bus (a : Byte) (n : Count) (s : State) : BusCommand s (execI2cRead a n s) := by
  unfold execI2cRead
  split
  · exact .raise _ (.refl s)
  · split
    · exact .raise _ (.refl s)
    · exact .finishRead _ (.read (busAddr a) n.toNat (.refl s))

theorem execEeRead_bus (a : Byte) (off : Off8) (n : Count) (s : State) : BusCommand s (execEeRead a off n s) := by
  unfold execEeRead
  split
  · exact .raise _ (.refl s)
  · split
    · exact .raise _ (.refl s)
    · split
      · exact .raise _ (.refl s)
      · have h := BusRun.write (busAddr a) [off] (.refl s)
        split
        · rename_i t ht
          rw [ht] at h
          exact .finishRead _ (.read (busAddr a) n.toNat h)
        · rename_i c t ht; rw [ht] at h; exact .raise _ h

theorem execEeWrite_bus (a : Byte) (off : Off8) (d : List Byte) (s : State) : BusCommand s (execEeWrite a off d s) := by
  unfold execEeWrite
  split
  · exact .raise _ (.refl s)
  · split
    · exact .raise _ (.refl s)
    · have h := BusRun.eeWriteLoop (busAddr a) d off.toNat (.refl s)
      split
      · rename_i t ht; rw [ht] at h; exact .finish _ h
      · rename_i c t ht; rw [ht] at h; exact .raise _ h

theorem execWaitWc_bus (s : State) : BusCommand s (execWaitWc s) := .finish [] (.wait (.refl s))

theorem BusCommand.ends {s : State} {r : Result} (h : BusCommand s r) :
    ∃ st data t c, BusRun s t ∧ EndsWith st data ∧ r = .next (respond st data (t.withCrc c)) := by
  obtain ⟨st, data, t, hb, he, hr⟩ := h
  exact ⟨st, data, t, t.crc, hb, he, hr⟩

/-- Every command ends with one response after its channel operations (R27, R29, R240). -/
theorem exec_ends (i : Instr) (s : State) :
    ∃ st data t c, BusRun s t ∧ EndsWith st data ∧ exec i s = .next (respond st data (t.withCrc c)) := by
  cases i with
  | crcInit => exact ⟨_, _, s, _, .refl s, .ok _, rfl⟩
  | crcBit d8 =>
    show ∃ st data t c, BusRun s t ∧ EndsWith st data ∧ execCrcBit d8 s = _
    unfold execCrcBit
    split
    · exact (BusCommand.raise _ (.refl s)).ends
    · exact ⟨_, _, s, _, .refl s, .ok _, rfl⟩
  | crcByte d8 => exact ⟨_, _, s, _, .refl s, .ok _, rfl⟩
  | crcRead => exact ⟨_, _, s, s.crc, .refl s, .ok _, rfl⟩
  | crcMsg d => exact ⟨_, _, s, _, .refl s, .ok _, rfl⟩
  | i2cWrite a d => exact (execI2cWrite_bus a d s).ends
  | i2cRead a n => exact (execI2cRead_bus a n s).ends
  | eeRead a off n => exact (execEeRead_bus a off n s).ends
  | eeWrite a off d => exact (execEeWrite_bus a off d s).ends
  | waitWc => exact (execWaitWc_bus s).ends

/-- A frame is still to come exactly when some act has bytes after it. -/
theorem framesLeft_iff (ps : List Phase) : framesLeft ps = true ↔ ¬ ∀ p ∈ ps, p.stream = [] := by
  simp [framesLeft]

/-- Everything a step can do when it gives a next state: a command, an unassigned opcode, or an act of the host. -/
theorem step_cases {s t : State} (h : step s = .next t) :
    (∃ i rest, decode s.stream = .instr i rest ∧ exec i (s.withStream rest) = .next t) ∨
    (∃ op rest, decode s.stream = .badOp op rest ∧
      t = respond (Error.illegal .badOp).status [] (s.withStream rest)) ∨
    (∃ p ps, s.stream = [] ∧ s.phases = p :: ps ∧ framesLeft (p :: ps) = true ∧
      t = { hostAct p.act s with stream := p.stream, phases := ps }) := by
  unfold step fetch at h
  by_cases hs : s.stream = []
  · rw [if_pos hs] at h
    simp only [hostTurn] at h
    split at h
    · cases h
    · rename_i p ps hp
      split at h
      · rename_i hf
        cases h
        exact .inr (.inr ⟨p, ps, hs, hp, hf, rfl⟩)
      · cases h
  · rw [if_neg hs] at h
    cases hd : decode s.stream with
    | instr i rest => rw [hd] at h; exact .inl ⟨i, rest, rfl, h⟩
    | badOp op rest =>
      rw [hd] at h
      cases h
      exact .inr (.inl ⟨op, rest, rfl, rfl⟩)
    | incomplete => rw [hd] at h; cases h

end Sys2Proof.Laws
end

