-- ==== Sys2Proof/Laws/Crc.lean ====
section
/-! SUPPORT. The CRC functions: the byte step bit by bit, sequences, and the response byte. -/

namespace Sys2Proof.Laws

open Sys2Proof.Machine

/-- R180: one bit of the bit step, for any POLY (R181). -/
theorem crc5Bit_getLsbD (poly c : Crc) (b : Bool) (j : Nat) (h : j < 5) :
    (crc5Bit poly c b).getLsbD j =
      ((decide (0 < j) && c.getLsbD (j - 1)) ^^ ((b ^^ c.getLsbD 4) && poly.getLsbD j)) := by
  have hs : (c <<< 1).getLsbD j = (decide (0 < j) && c.getLsbD (j - 1)) := by
    rw [BitVec.getLsbD_shiftLeft]
    by_cases hj : j = 0
    · simp [hj]
    · have h1 : ¬ j < 1 := by omega
      have h2 : 0 < j := by omega
      simp [h, h1, h2]
  unfold crc5Bit
  cases hf : (b ^^ c.getLsbD 4)
  · simp [hs]
  · rw [if_pos rfl, BitVec.getLsbD_xor, hs]
    simp

theorem crc5Shift_shiftLeft (poly c : Crc) (n k : Nat) (d : Byte) (h : k ≤ 7) :
    crc5Shift poly (n + 1) c (d <<< k) = crc5Shift poly n (crc5Bit poly c (d.getLsbD (7 - k))) (d <<< (k + 1)) := by
  have h7 : (d <<< k).getLsbD 7 = d.getLsbD (7 - k) := by
    have h1 : ¬ 7 < k := by omega
    rw [BitVec.getLsbD_shiftLeft]
    simp [h1]
  rw [crc5Shift, h7, BitVec.shiftLeft_add]

@[simp] theorem crc5Bytes_nil (poly c : Crc) : crc5Bytes poly c [] = c := rfl

@[simp] theorem crc5Bytes_cons (poly c : Crc) (b : Byte) (bs : List Byte) :
    crc5Bytes poly c (b :: bs) = crc5Bytes poly (crc5Byte poly c b) bs := rfl

theorem crc5Bytes_append (poly c : Crc) (xs ys : List Byte) :
    crc5Bytes poly c (xs ++ ys) = crc5Bytes poly (crc5Bytes poly c xs) ys := List.foldl_append

@[simp] theorem crcByteOf_toNat (c : Crc) : (crcByteOf c).toNat = c.toNat := by
  have := c.isLt
  simp only [crcByteOf, BitVec.toNat_setWidth]
  omega

end Sys2Proof.Laws
end

