-- ==== Sys2Proof/Laws/Frames.lean ====
section
/-! SUPPORT. The fields of a frame: the opcode byte, the count and the payload, each read back from how it is written. -/

namespace Sys2Proof.Laws

theorem Opcode.ofByte_byte (o : Opcode) : Opcode.ofByte o.byte = some o := by
  cases o <;> decide

theorem Opcode.byte_of_ofByte {op : Byte} {o : Opcode} (h : Opcode.ofByte op = some o) : o.byte = op := by
  have := List.find?_some h
  simpa using this

theorem countOf_countBytes (n : Count) : countOf (n.extractLsb' 8 8) (n.extractLsb' 0 8) = n := by
  unfold countOf
  apply BitVec.eq_of_getLsbD_eq
  intro i hi
  simp only [BitVec.getLsbD_append, BitVec.getLsbD_extractLsb']
  by_cases h : i < 8
  · simp [h]
  · have : i - 8 < 8 := by omega
    have h8 : 8 + (i - 8) = i := by omega
    simp [h, this, h8]

theorem countBytes_countOf (nh nl : Byte) : countBytes (countOf nh nl) = [nh, nl] := by
  have hi : (nh ++ nl).extractLsb' 8 8 = nh := by
    apply BitVec.eq_of_getLsbD_eq
    intro i hi
    rw [BitVec.getLsbD_extractLsb', BitVec.getLsbD_append]
    have h1 : ¬ 8 + i < 8 := by omega
    have h2 : 8 + i - 8 = i := by omega
    simp only [hi, h1, h2, decide_true, Bool.true_and]
    simp
  have lo : (nh ++ nl).extractLsb' 0 8 = nl := by
    apply BitVec.eq_of_getLsbD_eq
    intro i hi
    rw [BitVec.getLsbD_extractLsb', BitVec.getLsbD_append]
    simp only [Nat.zero_add, hi, decide_true, Bool.true_and]
    simp
  rw [countBytes, countOf, hi, lo]

theorem length_of_fits {d : List Byte} (h : d.length ≤ 65535) : (BitVec.ofNat 16 d.length).toNat = d.length := by
  simp only [BitVec.toNat_ofNat]
  omega

/-- A payload behind its own count is taken whole, and what follows it is left. -/
theorem withPayload_of_fits {d : List Byte} (rest : List Byte) (mk : List Byte → Instr) (h : d.length ≤ 65535) :
    withPayload (BitVec.ofNat 16 d.length) (d ++ rest) mk = .instr (mk d) rest := by
  unfold withPayload
  rw [length_of_fits h, if_pos (by simp)]
  simp

/-- The frames a payload command decodes from: the count's bytes are in the stream. -/
theorem withPayload_instr {n : Count} {bs rest : List Byte} {mk : List Byte → Instr} {i : Instr}
    (h : withPayload n bs mk = .instr i rest) :
    ∃ d, i = mk d ∧ bs = d ++ rest ∧ d.length = n.toNat := by
  unfold withPayload at h
  split at h
  · rename_i hn
    cases h
    exact ⟨bs.take n.toNat, rfl, (List.take_append_drop _ _).symm, by simp [hn]⟩
  · cases h

end Sys2Proof.Laws
end

