-- ==== Sys2Proof/Laws/Header.lean ====
section
/-! SUPPORT. The host decoder: when a field is present, what it holds then, and a slice byte by byte. -/

namespace Sys2Proof.Laws

open Sys2Proof.Machine

theorem present_iff (f : HeaderField) (image : List Byte) : f.present image = true ↔ f.last ≤ image.length := by
  simp [HeaderField.present]

theorem decodeField_of_le {α : Type} {image : List Byte} {f : HeaderField} (value : List Byte → α)
    (h : f.last ≤ image.length) : decodeField image f value = some (value (f.bytes image)) := by
  rw [decodeField, if_pos ((present_iff f image).mpr h)]

theorem isSome_decodeField {α : Type} (image : List Byte) (f : HeaderField) (value : List Byte → α) :
    (decodeField image f value).isSome = decide (f.last ≤ image.length) := by
  unfold decodeField HeaderField.present
  by_cases h : f.last ≤ image.length <;> simp [h]

theorem imageSlice_getElem? {image : List Byte} {first last k : Nat} (h : first + k < last) :
    (imageSlice image first last)[k]? = image[first + k]? := by
  have : k < last - first := by omega
  simp [imageSlice, this]

end Sys2Proof.Laws
end

