-- ==== Sys2Proof/Laws/PerInstr.lean ====
section
/-! SUPPORT. The family FirstByte: every command's frame begins with its assigned opcode byte of R98, and the decoder
knows that byte as the command's opcode. -/

namespace Sys2Proof.Laws

/-- R98: the opcode of a command. -/
def opcodeOf : Instr → Opcode
  | .crcInit => .crcInit
  | .crcBit _ => .crcBit
  | .crcByte _ => .crcByte
  | .crcRead => .crcRead
  | .crcMsg _ => .crcMsg
  | .i2cWrite _ _ => .i2cWrite
  | .i2cRead _ _ => .i2cRead
  | .eeRead _ _ _ => .eeRead
  | .eeWrite _ _ _ => .eeWrite
  | .waitWc => .waitWc

/-- R90, R98: the first byte of the command's frame is its opcode's. -/
def FirstByte.Statement (i : Instr) : Prop :=
  ∃ op bs, encode i = op :: bs ∧ Opcode.ofByte op = some (opcodeOf i)

theorem FirstByte.crcInit : FirstByte.Statement .crcInit := ⟨_, _, rfl, rfl⟩

theorem FirstByte.crcBit (d8 : Byte) : FirstByte.Statement (.crcBit d8) := ⟨_, _, rfl, rfl⟩

theorem FirstByte.crcByte (d8 : Byte) : FirstByte.Statement (.crcByte d8) := ⟨_, _, rfl, rfl⟩

theorem FirstByte.crcRead : FirstByte.Statement .crcRead := ⟨_, _, rfl, rfl⟩

theorem FirstByte.crcMsg (d : List Byte) : FirstByte.Statement (.crcMsg d) := ⟨_, _, rfl, rfl⟩

theorem FirstByte.i2cWrite (a : Byte) (d : List Byte) : FirstByte.Statement (.i2cWrite a d) := ⟨_, _, rfl, rfl⟩

theorem FirstByte.i2cRead (a : Byte) (n : Count) : FirstByte.Statement (.i2cRead a n) := ⟨_, _, rfl, rfl⟩

theorem FirstByte.eeRead (a : Byte) (off : Off8) (n : Count) : FirstByte.Statement (.eeRead a off n) :=
  ⟨_, _, rfl, rfl⟩

theorem FirstByte.eeWrite (a : Byte) (off : Off8) (d : List Byte) : FirstByte.Statement (.eeWrite a off d) :=
  ⟨_, _, rfl, rfl⟩

theorem FirstByte.waitWc : FirstByte.Statement .waitWc := ⟨_, _, rfl, rfl⟩

end Sys2Proof.Laws
end

