-- ==== Sys2Proof/Laws/Safety.lean ====
section
/-! SUPPORT. The launch premise CapMatches (spec/70_reset_and_hazards.md R275): from the list of devices, and from the
invariant. -/

namespace Sys2Proof.Laws

open Sys2Proof.Machine Sys2Proof.Safety

theorem capMatches_of_dev {s : State} (h : ∀ e ∈ s.dev, Memory.within s.cfg.cap e.2.mem) : CapMatches s :=
  fun _ _ hd => h _ (mem_of_lookupKey hd)

theorem capMatches_of_inv {s : State} (h : Inv s) : CapMatches s :=
  capMatches_of_dev fun e he => (h.devices.2 e he).2.2

end Sys2Proof.Laws
end

