-- ==== Sys2Proof/Laws/Transceiver.lean ====
section
/-! SUPPORT. Sequences of byte-level events, and the outcomes of a transaction one draw at a time. -/

namespace Sys2Proof.Laws

open Sys2Proof.Machine

theorem fsmSteps_append (tx : Tx) (es fs : List BusEvent) (r : FsmRun) :
    fsmSteps tx (es ++ fs) r = (fsmSteps tx es r).bind (fsmSteps tx fs) := by
  induction es generalizing r with
  | nil => rfl
  | cons e es ih =>
    simp only [List.cons_append, fsmSteps]
    cases fsmStep tx r e <;> simp [ih]

theorem busSteps_append (s : State) (tx : Tx) (es fs : List BusEvent) (r : FsmRun) :
    busSteps s tx (es ++ fs) r = (busSteps s tx es r).bind (busSteps s tx fs) := by
  induction es generalizing r with
  | nil => rfl
  | cons e es ih =>
    simp only [List.cons_append, busSteps]
    split
    · cases fsmStep tx r e <;> simp [ih]
    · rfl

/-- One event that can happen with the devices of `s`. -/
theorem busSteps_cons {s : State} {tx : Tx} {e : BusEvent} {es : List BusEvent} {r r' : FsmRun}
    (h : busSteps s tx (e :: es) r = some r') :
    busAllows s tx r.state e = true ∧ ∃ q, fsmStep tx r e = some q ∧ busSteps s tx es q = some r' := by
  rw [busSteps] at h
  split at h
  · rename_i ha
    obtain ⟨q, hq, h⟩ := Option.bind_eq_some_iff.mp h
    exact ⟨ha, q, hq, h⟩
  · cases h

/-- What can happen with the devices of `s` is a run of the transceiver. -/
theorem fsmSteps_of_busSteps {s : State} {tx : Tx} {es : List BusEvent} {r r' : FsmRun}
    (h : busSteps s tx es r = some r') : fsmSteps tx es r = some r' := by
  induction es generalizing r with
  | nil => exact h
  | cons e es ih =>
    obtain ⟨-, q, hq, h⟩ := busSteps_cons h
    rw [fsmSteps, hq]
    exact ih h

/-- The outcome of a write transaction under a draw. -/
theorem perform_write (s : State) (a : Addr7) (bs : List Byte) :
    ((Tx.write a bs).perform s).1 = (writeOutcome (s.draw 0) (s.device a)).bus := rfl

/-- The outcome of a read transaction under a draw. -/
theorem perform_read (s : State) (a : Addr7) (n : Nat) :
    ((Tx.read a n).perform s).1 = (readOutcome s.cfg s.tx n (s.draw 0) (s.device a)).bus := rfl

end Sys2Proof.Laws
end

