-- ==== Sys2Proof/Tests/Slice0.lean ====
section
/-! SUPPORT. Small tests. Every expected value is from the spec: spec/95_test_vectors.md (V6, V7, V9, P1 to P7), the
examples and encodings of the numbered rules. The `witness_` theorems show that the hypotheses of the obligation they
name can be met together. -/

namespace Sys2Proof.Tests

open Sys2Proof.Machine Sys2Proof.Safety
open Sys2Proof.Laws (capMatches_of_dev)

/-! ### Small states -/

/-- A transaction that succeeds. -/
def okDraw : TxDraw := ⟨true, true, .nack⟩

/-- A transaction that fails with this cause. -/
def errDraw (c : Cause) : TxDraw := ⟨false, false, c⟩

/-- A device at rest, whose write cycle takes all of T_WC. -/
def rested (mem : Memory) (ptr : Option Off8) : Device := ⟨mem, ptr, false, 10⟩

/-- A device in its write cycle. -/
def busy (mem : Memory) : Device := ⟨mem, none, true, 10⟩

/-- MEM[0x05] to MEM[0x07] are 0x15 to 0x17, MEM[0xFE] and MEM[0xFF] are 0xAE and 0xAF; the rest is 0xFF or 0x00. -/
def sample : Memory := [(0, 0x10#8), (1, 0x00#8), (5, 0x15#8), (6, 0x16#8), (7, 0x17#8), (254, 0xAE#8), (255, 0xAF#8)]

/-- One device at 0x50, MAX_XFER = 16, as in spec/95 §2.6 and §2.7. -/
def bench (d : Device) (chan : List TxDraw) : State :=
  { State.reset with cfg := { Params.launch with maxXfer := 16, readWrap := .wrap }, dev := [(0x50, d)], chan := chan }

/-- The same with another capacity and other limits. -/
def benchOf (cap maxXfer : Nat) (d : Device) (chan : List TxDraw) : State :=
  { bench d chan with cfg := { Params.launch with cap := cap, maxXfer := maxXfer } }

/-- The next state, if there is one. -/
def stateOf : Result → Option State
  | .next t => some t
  | .fault _ => none
  | .refused _ => none

/-- The last response of the next state. -/
def answer (r : Result) : Option Rsp := (stateOf r).bind fun t => t.rsps.getLast?

/-- The history of the next state. -/
def history (r : Result) : Option (List Event) := (stateOf r).map State.hist

/-- The CRC register of the next state. -/
def crcAfter (r : Result) : Option Crc := (stateOf r).map State.crc

/-- The device at 0x50 in the next state. -/
def deviceAfter (r : Result) : Option Device := (stateOf r).bind fun t => t.device 0x50#7

/-- After reset, with this CRC. -/
def withReg (c : Crc) : State := { State.reset with crc := c }

/-! ### Well-formedness: a payload longer than the count field can say (R92) is refused -/

theorem test_wellFormed_crcMsg : (Instr.crcMsg (List.replicate 65536 0x00#8)).wellFormed = false := by
  simp [Instr.wellFormed, payloadFits, -List.reduceReplicate]

theorem test_wellFormed_i2cWrite : (Instr.i2cWrite 0x50#8 (List.replicate 65536 0x00#8)).wellFormed = false := by
  simp [Instr.wellFormed, payloadFits, -List.reduceReplicate]

theorem test_wellFormed_eeWrite : (Instr.eeWrite 0x50#8 0#8 (List.replicate 65536 0x00#8)).wellFormed = false := by
  simp [Instr.wellFormed, payloadFits, -List.reduceReplicate]

/-- R92: 65535 bytes fit. -/
theorem test_wellFormed_longest : (Instr.eeWrite 0x50#8 0#8 (List.replicate 65535 0x00#8)).wellFormed = true := by
  simp [Instr.wellFormed, payloadFits, -List.reduceReplicate]

/-! ### Decoding: frames written out from R91 and R98 -/

theorem test_decode_crcInit : decode [0b00000001#8, 0x30#8] = .instr .crcInit [0x30#8] := by decide

theorem test_decode_crcBit : decode [0b00000010#8, 0b00000001#8] = .instr (.crcBit 1#8) [] := by decide

theorem test_decode_crcByte : decode [0b00000011#8, 0b11111111#8] = .instr (.crcByte 255#8) [] := by decide

theorem test_decode_crcRead : decode [0b00000100#8] = .instr .crcRead [] := by decide

theorem test_decode_crcMsg : decode [0b00000101#8, 0#8, 2#8, 0x12#8, 0x34#8, 0x04#8] =
    .instr (.crcMsg [0x12#8, 0x34#8]) [0x04#8] := by decide

theorem test_decode_i2cWrite : decode [0b00010000#8, 0x50#8, 0#8, 1#8, 0x10#8] =
    .instr (.i2cWrite 0x50#8 [0x10#8]) [] := by decide

/-- The count is big-endian: NH = 1, NL = 2 is 258. -/
theorem test_decode_i2cRead : decode [0b00010001#8, 0x50#8, 1#8, 2#8] = .instr (.i2cRead 0x50#8 258#16) [] := by decide

theorem test_decode_eeRead : decode [0b00100000#8, 0x50#8, 0xF0#8, 0#8, 0x10#8] =
    .instr (.eeRead 0x50#8 0xF0#8 16#16) [] := by decide

theorem test_decode_eeWrite : decode [0b00100001#8, 0x50#8, 0x10#8, 0#8, 2#8, 0xAB#8, 0xCD#8] =
    .instr (.eeWrite 0x50#8 0x10#8 [0xAB#8, 0xCD#8]) [] := by decide

theorem test_decode_waitWc : decode [0b00110000#8] = .instr .waitWc [] := by decide

/-- spec/95 §2.1: `12 50 00 01` begins with a one-byte unassigned frame. -/
theorem test_decode_badOp : decode [0x12#8, 0x50#8, 0x00#8, 0x01#8] = .badOp 0x12#8 [0x50#8, 0x00#8, 0x01#8] := by decide

/-- spec/95 §2.1: `21 50 00 00 02 AB` and the end of the stream. -/
theorem test_decode_incomplete : decode [0x21#8, 0x50#8, 0#8, 0#8, 2#8, 0xAB#8] = .incomplete := by decide

/-- R99: the ends of the unassigned ranges, and how many opcodes are unassigned. -/
theorem test_unassigned : [0x00#8, 0x06#8, 0x0F#8, 0x12#8, 0x1F#8, 0x22#8, 0x2F#8, 0x31#8, 0xFF#8].all
      (fun op => Opcode.ofByte op == none) = true ∧
    ((List.range 256).filter fun n => Opcode.ofByte (BitVec.ofNat 8 n) == none).length = 246 := by decide +kernel

/-- The table's first word of EE_READ is its opcode byte; the operand bytes above it are zero. -/
theorem test_tableWord : decodeTableWord 8 0x20 = some (.eeRead 0#8 0#8 0#16) ∧
    decodeTableWord 40 0x1000F05020 = some (.eeRead 0x50#8 0xF0#8 16#16) ∧ decodeTableWord 8 0x12 = none := by decide

theorem test_withFetchWord : answer (step (State.reset.withFetchWord 8 0x04)) = some ⟨0x00#8, [0x1F#8]⟩ := by decide

/-! ### The CRC commands (spec/95 §2.2 to §2.5) -/

/-- spec/95 §2.2, every register value. -/
theorem test_crc5Bit_zero : (List.range 32).map (fun c => (crc5Bit 0x15#5 (BitVec.ofNat 5 c) false).toNat) =
    [0x00, 0x02, 0x04, 0x06, 0x08, 0x0A, 0x0C, 0x0E, 0x10, 0x12, 0x14, 0x16, 0x18, 0x1A, 0x1C, 0x1E,
      0x15, 0x17, 0x11, 0x13, 0x1D, 0x1F, 0x19, 0x1B, 0x05, 0x07, 0x01, 0x03, 0x0D, 0x0F, 0x09, 0x0B] := by decide +kernel

/-- spec/95 §2.3: `crc5_byte(c, 0xFF)` for every register value. -/
theorem test_crc5Byte_ff : (List.range 32).map (fun c => (crc5Byte 0x15#5 (BitVec.ofNat 5 c) 0xFF#8).toNat) =
    [0x1B, 0x0D, 0x02, 0x14, 0x1C, 0x0A, 0x05, 0x13, 0x15, 0x03, 0x0C, 0x1A, 0x12, 0x04, 0x0B, 0x1D,
      0x07, 0x11, 0x1E, 0x08, 0x00, 0x16, 0x19, 0x0F, 0x09, 0x1F, 0x10, 0x06, 0x0E, 0x18, 0x17, 0x01] := by decide +kernel

/-- spec/95 §2.4. -/
theorem test_crc5_messages : crc5 Params.launch [] = 0x1F#5 ∧ crc5 Params.launch [0x12#8, 0x34#8] = 0x00#5 ∧
    crc5 Params.launch [0x01#8, 0x02#8, 0x03#8, 0x04#8] = 0x1B#5 ∧
    crc5 Params.launch [0x31#8, 0x32#8, 0x33#8, 0x34#8, 0x35#8, 0x36#8, 0x37#8, 0x38#8, 0x39#8] = 0x14#5 := by decide +kernel

/-- R184: after `CRC_BYTE 0x00`, CRC = 0x1A. -/
theorem test_crcInit : crcAfter (exec .crcInit (withReg 0x1A#5)) = some 0x1F#5 := by decide

theorem test_crcBit : crcAfter (exec (.crcBit 0#8) (withReg 0x1F#5)) = some 0x0B#5 ∧
    crcAfter (exec (.crcBit 1#8) (withReg 0x10#5)) = some 0x00#5 := by decide

theorem test_crcBit_reserved : answer (exec (.crcBit 3#8) (withReg 0x0B#5)) = some ⟨0x07#8, []⟩ ∧
    crcAfter (exec (.crcBit 3#8) (withReg 0x0B#5)) = some 0x0B#5 := by decide

theorem test_crcByte : crcAfter (exec (.crcByte 0x01#8) (withReg 0x1F#5)) = some 0x0F#5 ∧
    crcAfter (exec (.crcByte 0xFF#8) (withReg 0x10#5)) = some 0x07#5 := by decide

theorem test_crcRead : answer (exec .crcRead (withReg 0x1A#5)) = some ⟨0x00#8, [0x1A#8]⟩ := by decide

theorem test_crcMsg : answer (exec (.crcMsg [0x12#8, 0x34#8]) (withReg 0x07#5)) = some ⟨0x00#8, [0x00#8]⟩ ∧
    crcAfter (exec (.crcMsg [0x12#8, 0x34#8]) (withReg 0x07#5)) = some 0x00#5 := by decide +kernel

theorem test_crcMsg_empty : answer (exec (.crcMsg []) (withReg 0x07#5)) = some ⟨0x00#8, [0x1F#8]⟩ := by decide

/-! ### The raw I2C commands (spec/95 §2.6) -/

/-- V6.1. -/
theorem test_i2cWrite_pointer :
    deviceAfter (exec (.i2cWrite 0x50#8 [0x05#8]) (bench (rested sample none) [okDraw])) =
      some (rested sample (some 0x05#8)) ∧
    history (exec (.i2cWrite 0x50#8 [0x05#8]) (bench (rested sample none) [okDraw])) =
      some [.txW 0x50#7 [0x05#8] .ok] := by decide

/-- V6.4. -/
theorem test_i2cWrite_store :
    deviceAfter (exec (.i2cWrite 0x50#8 [0x05#8, 0x99#8]) (bench (rested [(5, 0x15#8)] none) [okDraw])) =
      some (busy [(5, 0x99#8)]) := by decide

/-- V6.2. -/
theorem test_i2cRead : answer (exec (.i2cRead 0x50#8 3#16) (bench (rested sample (some 0x05#8)) [okDraw])) =
      some ⟨0x00#8, [0x15#8, 0x16#8, 0x17#8]⟩ ∧
    deviceAfter (exec (.i2cRead 0x50#8 3#16) (bench (rested sample (some 0x05#8)) [okDraw])) =
      some (rested sample none) := by decide

/-- V6.12, READ_WRAP = wrap. -/
theorem test_i2cRead_wraps : answer (exec (.i2cRead 0x50#8 4#16) (bench (rested sample (some 0xFE#8)) [okDraw])) =
    some ⟨0x00#8, [0xAE#8, 0xAF#8, 0x10#8, 0x00#8]⟩ := by decide

/-! ### The EEPROM commands (spec/95 §2.7) -/

/-- V7.7. -/
theorem test_eeRead_fails :
    answer (exec (.eeRead 0x50#8 0#8 4#16) (bench (rested sample none) [okDraw, errDraw .timeout])) =
      some ⟨0x09#8, []⟩ ∧
    history (exec (.eeRead 0x50#8 0#8 4#16) (bench (rested sample none) [okDraw, errDraw .timeout])) =
      some [.txW 0x50#7 [0x00#8] .ok, .txR 0x50#7 4 (.err .timeout)] := by decide

/-- V7.4: LENGTH is reported, not CAPACITY; and V7.2. -/
theorem test_eeRead_priority : answer (exec (.eeRead 0x50#8 0xFF#8 17#16) (bench (rested [] none) [])) =
      some ⟨0x02#8, []⟩ ∧
    answer (exec (.eeRead 0x50#8 0xF1#8 16#16) (bench (rested [] none) [])) = some ⟨0x06#8, []⟩ := by decide

/-- P2, first command: `EE_WRITE 0x50, 0x10, [0xAB, 0xCD]` on a device full of 0xFF. -/
theorem test_eeWrite :
    deviceAfter (exec (.eeWrite 0x50#8 0x10#8 [0xAB#8, 0xCD#8]) (bench (rested [] none) [okDraw, okDraw])) =
      some (rested [(0x10, 0xAB#8), (0x11, 0xCD#8)] none) ∧
    history (exec (.eeWrite 0x50#8 0x10#8 [0xAB#8, 0xCD#8]) (bench (rested [] none) [okDraw, okDraw])) =
      some [.txW 0x50#7 [0x10#8, 0xAB#8] .ok, .delay, .txW 0x50#7 [0x11#8, 0xCD#8] .ok, .delay] := by decide

/-- P6, first command: the second transaction fails with NACK; the third is not issued and no Delay follows. -/
theorem test_eeWrite_stops :
    answer (exec (.eeWrite 0x50#8 0#8 [0x11#8, 0x22#8, 0x33#8])
      (bench (rested [] none) [okDraw, errDraw .nack, okDraw])) = some ⟨0x05#8, []⟩ ∧
    history (exec (.eeWrite 0x50#8 0#8 [0x11#8, 0x22#8, 0x33#8])
      (bench (rested [] none) [okDraw, errDraw .nack, okDraw])) =
      some [.txW 0x50#7 [0x00#8, 0x11#8] .ok, .delay, .txW 0x50#7 [0x01#8, 0x22#8] (.err .nack)] := by decide

/-- V7.15. -/
theorem test_waitWc : deviceAfter (exec .waitWc (bench (busy sample) [])) = some (rested sample none) ∧
    history (exec .waitWc (bench (busy sample) [])) = some [.delay] := by decide

/-! ### Frames, errors and the host (spec/95 §2.1, §2.8, §2.10) -/

/-- `FF`. -/
theorem test_step_badOp : answer (step (State.reset.deliver [0xFF#8])) = some ⟨0x03#8, []⟩ := by decide

/-- `20 80 00 00 00`: RSVD before LENGTH. -/
theorem test_step_reserved : answer (step (State.reset.deliver [0x20#8, 0x80#8, 0#8, 0#8, 0#8])) =
    some ⟨0x07#8, []⟩ := by decide

/-- `05 00` and the end of the stream: stuck. -/
theorem test_step_incomplete : step (State.reset.deliver [0x05#8, 0x00#8]) = .fault .incompleteFrame := rfl

/-- R25: STATUS of an IoError for each cause. -/
theorem test_status : [Cause.unknown, .nack, .timeout, .absent, .arbLost].map (fun c => (Error.io c).status) =
    [0x01#8, 0x05#8, 0x09#8, 0x0D#8, 0x11#8] := by decide

/-- P5: the host swaps the device between two commands. -/
theorem test_swap : deviceAfter (step { bench (rested sample none) [] with
    phases := [⟨.swap 0x50#7 (some (rested [] none)), [0x30#8]⟩] }) = some (rested [] none) := by decide

/-- R36: an act behind the last frame is not done; the run has ended with the CRC of `03 00` (R186: 0x1A). -/
theorem test_end_of_run :
    (stateOf (step { State.reset with stream := [0x03#8, 0x00#8], phases := [⟨.reset, []⟩] })).map
      (fun u => (decide (ended u), (stateOf (step u)).isSome, u.crc)) = some (true, false, 0x1A#5) := by decide

/-! ### The byte level (spec/95 §2.6, last lines) -/

/-- V6.4: START, A0 ACK, 05 ACK, 99 ACK, STOP. -/
theorem test_wire_write :
    (fsmSteps (.write 0x50#7 [0x05#8, 0x99#8]) [.issue, .ack, .ack, .ack, .stopDone] .start).map FsmRun.wire =
      some [.start, .byte 0xA0#8, .ack, .byte 0x05#8, .ack, .byte 0x99#8, .ack, .stop] := by decide

/-- V6.2: START, A1 ACK, two bytes with ACK, one with NACK, STOP. -/
theorem test_wire_read :
    (fsmSteps (.read 0x50#7 3) [.issue, .ack, .byteIn 0x15#8, .byteIn 0x16#8, .byteIn 0x17#8, .stopDone] .start).map
      FsmRun.wire = some [.start, .byte 0xA1#8, .ack, .byte 0x15#8, .ack, .byte 0x16#8, .ack, .byte 0x17#8, .nack,
        .stop] := by decide

/-! ### The header decoder (spec/95 §2.9) -/

/-- The image of V9.1. -/
def image31 : List Byte := [0x01#8, 0x02#8, 0x03#8, 0x04#8, 0x53#8, 0x4E#8, 0x30#8, 0x31#8, 0x32#8, 0x33#8, 0x34#8, 0x35#8,
  0x36#8, 0x37#8, 0x38#8, 0x39#8, 0x41#8, 0x42#8, 0x43#8, 0x44#8, 0x45#8, 0x50#8, 0x31#8, 0x7F#8, 0x1F#8, 0x01#8, 0x02#8,
  0x0A#8, 0x0B#8, 0xFF#8, 0xFF#8]

def image256 : List Byte :=
  image31 ++ List.replicate 33 0x00#8 ++ List.replicate 64 0xFF#8 ++ List.replicate 128 0x00#8

/-- V9.1. -/
theorem test_header_text : (decodeHeader Params.launch image256).1.serialNumberAscii = some "SN0123456789ABCDE".toList ∧
    (decodeHeader Params.launch image256).1.productIdAscii = some "P1??".toList ∧
    (decodeHeader Params.launch image256).1.bomVersion = some 0x0102#16 ∧
    (decodeHeader Params.launch image256).1.bomVersionText = some "0102".toList ∧
    (decodeHeader Params.launch image256).1.pcbVersion = some 2571#16 ∧
    (decodeHeader Params.launch image256).1.fixtureVersion = some 65535#16 := by decide +kernel

/-- V9.1. -/
theorem test_header_checksum : (decodeHeader Params.launch image256).1.crc5FixtureHeader = some 0x1B#5 ∧
    (decodeHeader Params.launch image256).2 = [] := by decide +kernel

/-- V9.3, length 31. -/
theorem test_header_short : (decodeHeader Params.launch image31).2 = [.crc5CgminerHeader, .crc5ClassInfo] := by decide

/-- V9.5. -/
theorem test_bom : renderBom .lower 0xABCD#16 = "abcd".toList ∧ renderBom .upper 0xABCD#16 = "ABCD".toList ∧
    renderBom .lower 0x000F#16 = "000f".toList := by decide

/-- V9.5: the launch's HEX_CASE fixes the case (R13). -/
theorem test_bom_case :
    (decodeHeader { Params.launch with hexCase := .upper } (List.replicate 25 0x00#8 ++ [0xAB#8, 0xCD#8])).1.bomVersionText =
      some "ABCD".toList := by decide

/-! ### The assembler (R106, R107) -/

/-- P1, three of its lines. -/
theorem test_assemble_text :
    assembleText [] ["CRC_INIT".toList, "CRC_BYTE 0x12".toList, "CRC_MSG [0x12, 0x34]".toList] =
      some [0x01#8, 0x03#8, 0x12#8, 0x05#8, 0x00#8, 0x02#8, 0x12#8, 0x34#8] := by decide

/-- P7: `POKE 0x50, 0x01, 0xA5`; and P2's EE_READ. -/
theorem test_assemble_pseudo : assembleText [] ["POKE 0x50, 0x01, 0xA5".toList, "EE_READ 0x50, 0x0F, 4".toList] =
    some [0x10#8, 0x50#8, 0#8, 2#8, 0x01#8, 0xA5#8, 0x30#8, 0x20#8, 0x50#8, 0x0F#8, 0#8, 4#8] := by decide

/-- P3: HDR_CRC_FIXTURE over the image of V9.1 is `05 00 04 01 02 03 04`. -/
theorem test_assemble_header : assembleText image31 ["HDR_CRC_FIXTURE".toList] =
    some [0x05#8, 0#8, 4#8, 0x01#8, 0x02#8, 0x03#8, 0x04#8] := by decide

/-- R106: an address above 0x7F and a bit other than 0 or 1 are rejected. -/
theorem test_assemble_rejects : assembleText [] ["I2C_READ 0x80, 1".toList] = none ∧
    assembleText [] ["CRC_BIT 2".toList] = none := by decide

/-! ### Witnesses: the hypotheses of an obligation met together, at the ends of their ranges -/

/-- The benches of the witnesses: a device at rest on a channel that succeeds, fails, or meets a write cycle. -/
def good : State := bench (rested sample none) (List.replicate 4 okDraw)

def failing : State := bench (rested sample none) [errDraw .nack]

def busyBench : State := bench (busy sample) [errDraw .timeout]

def noDevice : State := { State.reset with chan := [errDraw .absent] }

/-- P5: four bytes a device. -/
def smallDevice : Device := rested [(0, 0xDE#8), (1, 0xAD#8), (2, 0xBE#8), (3, 0xEF#8)] none

def smallBench : State := benchOf 4 4 smallDevice
  (List.replicate 4 okDraw)

theorem witness_CrcBitFeedsOneBit : (∀ j, j < 8 → 1 ≤ j → (0x01#8).getLsbD j = false) ∧
    ∀ j, j < 8 → 1 ≤ j → (0x00#8).getLsbD j = false := by decide

theorem witness_CrcMsgReturnsChecksum : (List.replicate 258 0x00#8).length = (0x01#8).toNat * 256 + (0x02#8).toNat ∧
    ([] : List Byte).length = (0x00#8).toNat * 256 + (0x00#8).toNat := by decide +kernel

theorem witness_OnlyCrcCommandsUseCrc : usesCrc (.eeWrite 0x50#8 0x00#8 [0x11#8]) = false ∧ usesCrc .waitWc = false := by
  decide

/-- The first clause in its two cases, and the second clause with another device at 0x51. -/
theorem witness_TransactionsUseOneDevice :
    (stateOf (exec (.i2cRead 0x50#8 1#16) good)).map (fun t => t.hist.contains .delay) = some false ∧
    (stateOf (exec .waitWc good)).map (fun t => t.hist.contains .delay) = some true ∧
    target (.i2cRead 0x50#8 1#16) ≠ some 0x51#7 ∧
    ({ good with dev := [(0x50, rested sample none), (0x51, busy [])] }).device 0x50#7 = good.device 0x50#7 := by decide

theorem witness_OnlyDelayEndsWriteCycle : busyBench.device 0x50#7 = some (busy sample) ∧ (busy sample).wcp = true ∧
    (stateOf (exec (.i2cRead 0x50#8 1#16) busyBench)).map (fun t => t.hist.contains .delay) = some false := by
  decide +kernel

theorem witness_ReservedBitsRaiseIllegal : (0x80#8).getLsbD 7 = true ∧ (0x02#8).getLsbD 1 = true ∧
    (0x80#8).getLsbD 7 = true := by decide

theorem witness_BadLengthRaisesCfgError : (0x50#8).getLsbD 7 = false ∧ ([] : List Byte).length = 0 ∧
    good.cfg.maxXfer < (List.replicate 17 0x00#8).length ∧ (0#16).toNat = 0 ∧ good.cfg.maxXfer < (17#16).toNat := by decide

theorem witness_PastCapacityRaisesCfgError : (0x50#8).getLsbD 7 = false ∧ 1 ≤ (16#16).toNat ∧
    (16#16).toNat ≤ good.cfg.maxXfer ∧ good.cfg.cap < (0xF1#8).toNat + (16#16).toNat ∧
    good.cfg.cap < (0xFF#8).toNat + [0x77#8, 0x88#8].length := by decide

theorem witness_UnassignedOpcodeRaisesIllegal :
    0x00#8 ∉ [0x01#8, 0x02#8, 0x03#8, 0x04#8, 0x05#8, 0x10#8, 0x11#8, 0x20#8, 0x21#8, 0x30#8] ∧
    0xFF#8 ∉ [0x01#8, 0x02#8, 0x03#8, 0x04#8, 0x05#8, 0x10#8, 0x11#8, 0x20#8, 0x21#8, 0x30#8] ∧
    (State.reset.deliver [0xFF#8, 0x30#8]).stream = 0xFF#8 :: [0x30#8] := by decide

/-- `21 50 00 00 02 AB` lacks its last byte, `05` all but its first. -/
theorem witness_IncompleteFrameIsStuck :
    (Instr.eeWrite 0x50#8 0x00#8 [0xAB#8, 0xCD#8]).wellFormed = true ∧
    encode (.eeWrite 0x50#8 0x00#8 [0xAB#8, 0xCD#8]) = [0x21#8, 0x50#8, 0x00#8, 0x00#8, 0x02#8, 0xAB#8] ++ [0xCD#8] ∧
    encode (.crcMsg []) = [0x05#8] ++ [0x00#8, 0x00#8] ∧
    (State.reset.deliver [0x05#8]).stream = [0x05#8] := by decide

/-- Nothing listed, an act behind the last frame, and, for the other direction, a frame still to come. -/
theorem witness_RunEndsWhenHostIsDone : ended State.reset ∧ ended { good with phases := [⟨.swap 0x00#7 none, []⟩] } ∧
    ¬ ended { good with phases := [⟨.reset, []⟩, ⟨.swap 0x00#7 none, [0x30#8]⟩] } := by decide

theorem witness_I2cWriteSetsPointer : (0x50#8).getLsbD 7 = false ∧ 1 ≤ good.cfg.maxXfer ∧
    good.device (busAddr 0x50#8) = some (rested sample none) ∧ (rested sample none).wcp = false ∧
    (good.draw 0).ok = true := by decide

theorem witness_I2cWriteStoresByte : (0x50#8).getLsbD 7 = false ∧ 2 ≤ good.cfg.maxXfer ∧
    (0xFF#8).toNat < good.cfg.cap ∧ good.device (busAddr 0x50#8) = some (rested sample none) ∧
    (rested sample none).wcp = false ∧ WriteCycleFits good.cfg (rested sample none) ∧
    (good.draw 0).ok = true := by decide

/-- Both shapes: V6.11 with CAP = 4, and V6.6. -/
theorem witness_I2cWriteOtherShapesHavoc : (0x50#8).getLsbD 7 = false ∧
    [0x04#8, 0x11#8].length ≤ smallBench.cfg.maxXfer ∧ smallBench.cfg.cap ≤ (0x04#8).toNat ∧
    [0x01#8, 0x02#8, 0x03#8].length ≤ smallBench.cfg.maxXfer ∧ 3 ≤ [0x01#8, 0x02#8, 0x03#8].length ∧
    smallBench.device (busAddr 0x50#8) = some smallDevice ∧ smallDevice.wcp = false ∧
    WriteCycleFits smallBench.cfg smallDevice ∧ (smallBench.draw 0).ok = true := by decide

/-- Each shape: one byte, two bytes below CAP, two bytes at CAP (4 bytes a device), three bytes. -/
theorem witness_FailedI2cWriteEffects : (0x50#8).getLsbD 7 = false ∧ 1 ≤ [0x05#8].length ∧
    [0x01#8, 0x02#8, 0x03#8].length ≤ failing.cfg.maxXfer ∧ ([0xFF#8, 0x99#8].headD 0x00#8).toNat < failing.cfg.cap ∧
    ¬ ([0x04#8, 0x99#8].headD 0x00#8).toNat < smallBench.cfg.cap ∧
    failing.device (busAddr 0x50#8) = some (rested sample none) ∧ (rested sample none).wcp = false ∧
    WriteCycleFits failing.cfg (rested sample none) ∧
    (failing.draw 0).ok = false := by decide

/-- N = 1 and N = MAX_XFER, from 0xFE on: the second reads past CAP. -/
theorem witness_I2cReadReturnsBytesFromPointer : (0x50#8).getLsbD 7 = false ∧ 1 ≤ (1#16).toNat ∧
    (16#16).toNat ≤ good.cfg.maxXfer ∧
    (bench (rested sample (some 0xFE#8)) [okDraw]).device (busAddr 0x50#8) = some (rested sample (some 0xFE#8)) ∧
    (rested sample (some 0xFE#8)).wcp = false ∧
    ((bench (rested sample (some 0xFE#8)) [okDraw]).draw 0).ok = true := by decide

/-- The first transaction fails, and the second (V7.7); OFF + N = CAP. -/
theorem witness_FailedI2cReadReturnsNothing : (0x50#8).getLsbD 7 = false ∧ 1 ≤ (1#16).toNat ∧
    (16#16).toNat ≤ failing.cfg.maxXfer ∧ failing.device (busAddr 0x50#8) = some (rested sample none) ∧
    (rested sample none).wcp = false ∧ (failing.draw 0).ok = false ∧
    (0xF0#8).toNat + (16#16).toNat ≤ failing.cfg.cap ∧
    ((bench (rested sample none) [okDraw, errDraw .timeout]).draw 0).ok = true ∧
    ((bench (rested sample none) [okDraw, errDraw .timeout]).draw 1).ok = false := by decide

theorem witness_AbsentDeviceFails : (0x50#8).getLsbD 7 = false ∧ noDevice.device (busAddr 0x50#8) = none ∧
    1 ≤ [0x00#8].length ∧ [0x00#8].length ≤ noDevice.cfg.maxXfer ∧ 1 ≤ (1#16).toNat ∧
    (256#16).toNat ≤ noDevice.cfg.maxXfer ∧ (0x00#8).toNat + (256#16).toNat ≤ noDevice.cfg.cap ∧
    (0xFF#8).toNat + (0x77#8 :: []).length ≤ noDevice.cfg.cap := by decide

/-- V7.16 and an EE_WRITE of the last byte; the channel answers under a write cycle in both ways. -/
theorem witness_WriteCycleHazardHavocs : (0x50#8).getLsbD 7 = false ∧
    busyBench.device (busAddr 0x50#8) = some (busy sample) ∧ (busy sample).wcp = true ∧
    WriteCycleFits busyBench.cfg (busy sample) ∧ 1 ≤ [0x00#8].length ∧ [0x00#8].length ≤ busyBench.cfg.maxXfer ∧ 1 ≤ (1#16).toNat ∧
    (16#16).toNat ≤ busyBench.cfg.maxXfer ∧ (0xF0#8).toNat + (16#16).toNat ≤ busyBench.cfg.cap ∧
    busyBench.cfg.cap ≤ 256 ∧ (0xFF#8).toNat + (0x77#8 :: []).length ≤ busyBench.cfg.cap ∧
    (busyBench.draw 0).okInHazard = false ∧ ((bench (busy sample) [okDraw, okDraw]).draw 1).okInHazard = true := by decide

/-- V7.1: OFF + N = CAP. -/
theorem witness_EeReadReturnsMemory : (0x50#8).getLsbD 7 = false ∧ 1 ≤ (16#16).toNat ∧
    (16#16).toNat ≤ good.cfg.maxXfer ∧ (0xF0#8).toNat + (16#16).toNat ≤ good.cfg.cap ∧
    good.device (busAddr 0x50#8) = some (rested sample none) ∧ (rested sample none).wcp = false ∧
    ChannelReliable 2 good := by decide

/-- Both ends of EE_READ occur: OK with a device at rest, and an error. -/
theorem witness_EeReadIsAllOrNothing :
    answer (exec (.eeRead 0x50#8 0x00#8 2#16) good) = some ⟨0x00#8, [0x10#8, 0x00#8]⟩ ∧
    good.device (busAddr 0x50#8) = some (rested sample none) ∧ (rested sample none).wcp = false ∧
    answer (exec (.eeRead 0x50#8 0x00#8 2#16) failing) = some ⟨0x05#8, []⟩ := by decide

/-- Two EE_READs that both succeed, with a read of the device, a Delay and a write to an absent address between. -/
theorem witness_EeReadIsRepeatable : good.device (busAddr 0x50#8) = some (rested sample none) ∧
    (rested sample none).wcp = false ∧
    (∀ i ∈ [Instr.waitWc, .i2cRead 0x50#8 0#16, .i2cWrite 0x51#8 [0x00#8]], writesNothingTo (busAddr 0x50#8) i) ∧
    (runInstrs [.eeRead 0x50#8 0xFE#8 2#16, .waitWc, .i2cRead 0x50#8 0#16, .i2cWrite 0x51#8 [0x00#8],
        .eeRead 0x50#8 0xFE#8 2#16] { good with chan := List.replicate 5 okDraw }).map
      (fun t => (t.rsps.head?, t.rsps.getLast?)) =
      some (some ⟨0x00#8, [0xAE#8, 0xAF#8]⟩, some ⟨0x00#8, [0xAE#8, 0xAF#8]⟩) := by
  refine ⟨by decide, by decide, ?_, by decide +kernel⟩
  intro i hi
  simp only [List.mem_cons, List.not_mem_nil, or_false] at hi
  obtain rfl | rfl | rfl := hi
  · trivial
  · trivial
  · show busAddr 0x51#8 ≠ busAddr 0x50#8
    decide

/-- Two bytes up to the last offset, and no byte at all. -/
theorem witness_EeWriteStoresPayload : (0x50#8).getLsbD 7 = false ∧ good.cfg.cap ≤ 256 ∧
    (0xFE#8).toNat + [0x77#8, 0x88#8].length ≤ good.cfg.cap ∧ (0xFF#8).toNat + ([] : List Byte).length ≤ good.cfg.cap ∧
    good.device (busAddr 0x50#8) = some (rested sample none) ∧ (rested sample none).wcp = false ∧
    WriteCycleFits good.cfg (rested sample none) ∧
    ChannelReliable [0x77#8, 0x88#8].length good := by decide

/-- V7.8, and OFF = CAP. -/
theorem witness_EeWriteOfNothingEndsOk : (0x50#8).getLsbD 7 = false ∧ (0xFF#8).toNat ≤ good.cfg.cap ∧
    (0x04#8).toNat ≤ smallBench.cfg.cap := by decide

/-- P6, whose second transaction fails; and a failure at the first byte. -/
theorem witness_EeWriteStopsAtFirstFailure : (0x50#8).getLsbD 7 = false ∧
    (bench (rested [] none) [okDraw, errDraw .nack]).cfg.cap ≤ 256 ∧
    (0x00#8).toNat + ([0x11#8] ++ 0x22#8 :: [0x33#8]).length ≤ (bench (rested [] none) [okDraw, errDraw .nack]).cfg.cap ∧
    (bench (rested [] none) [okDraw, errDraw .nack]).device (busAddr 0x50#8) = some (rested [] none) ∧
    (rested [] none).wcp = false ∧ WriteCycleFits failing.cfg (rested [] none) ∧
    ChannelReliable [0x11#8].length (bench (rested [] none) [okDraw, errDraw .nack]) ∧
    ((bench (rested [] none) [okDraw, errDraw .nack]).draw [0x11#8].length).ok = false ∧
    ChannelReliable ([] : List Byte).length failing ∧ (failing.draw ([] : List Byte).length).ok = false := by decide

theorem witness_EeWriteDelaysAddUp : (0x50#8).getLsbD 7 = false ∧ good.cfg.cap ≤ 256 ∧
    (0xFE#8).toNat + [0x77#8, 0x88#8].length ≤ good.cfg.cap ∧ good.device (busAddr 0x50#8) = some (rested sample none) ∧
    WriteCycleFits good.cfg (rested sample none) ∧
    answer (exec (.eeWrite 0x50#8 0xFE#8 [0x77#8, 0x88#8]) good) = some ⟨0x00#8, []⟩ := by decide

theorem witness_PokeEqualsOneByteEeWrite : (0x50#8).getLsbD 7 = false ∧ good.cfg.wf ∧
    (0xFF#8).toNat + 1 ≤ good.cfg.cap ∧ good.device (busAddr 0x50#8) = some (rested sample none) ∧
    (rested sample none).wcp = false ∧ WriteCycleFits good.cfg (rested sample none) ∧ (good.draw 0).ok = true := by decide

/-- P5: the source, and the target that the host swaps in. -/
theorem witness_CloneCopiesWholeDevice : (0x50#8).getLsbD 7 = false ∧ smallBench.cfg.wf ∧
    smallBench.cfg.cap ≤ smallBench.cfg.maxXfer ∧
    smallBench.device (busAddr 0x50#8) = some smallDevice ∧ smallDevice.wcp = false ∧
    WriteCycleFits smallBench.cfg (rested [(0, 0x00#8), (3, 0x00#8)] none) ∧
    Memory.canonical smallDevice.mem ∧ ChannelReliable 2 smallBench ∧ CapMatches smallBench ∧
    (benchOf 4 4 (rested [(0, 0x00#8), (3, 0x00#8)] none) (List.replicate 4 okDraw)).cfg = smallBench.cfg ∧
    Memory.canonical [(0, 0x00#8), (3, 0x00#8)] ∧
    ChannelReliable 4 (benchOf 4 4 (rested [(0, 0x00#8), (3, 0x00#8)] none) (List.replicate 4 okDraw)) ∧
    CapMatches (benchOf 4 4 (rested [(0, 0x00#8), (3, 0x00#8)] none) (List.replicate 4 okDraw)) :=
  ⟨by decide, by decide, by decide, by decide, by decide, by decide, by decide, by decide, capMatches_of_dev (by decide),
    by decide, by decide, by decide, capMatches_of_dev (by decide)⟩

theorem witness_DecodeOfEncode : (Instr.eeWrite 0x50#8 0x10#8 [0xAB#8, 0xCD#8]).wellFormed = true ∧
    (Instr.crcMsg []).wellFormed = true := by decide

theorem witness_DecodedFrameIsItsEncoding :
    decode [0x11#8, 0x50#8, 0x01#8, 0x02#8, 0x30#8] = .instr (.i2cRead 0x50#8 0x0102#16) [0x30#8] := by decide

theorem witness_FrameLengthIsFormatLength : (Instr.eeWrite 0x50#8 0x10#8 [0xAB#8]).wellFormed = true ∧
    0x12#8 ∉ [0x01#8, 0x02#8, 0x03#8, 0x04#8, 0x05#8, 0x10#8, 0x11#8, 0x20#8, 0x21#8, 0x30#8] := by decide

theorem witness_StepRunsDecodedFrame : (Instr.crcMsg [0x12#8]).wellFormed = true ∧
    (State.reset.deliver [0x05#8, 0x00#8, 0x01#8, 0x12#8, 0x30#8]).stream = encode (.crcMsg [0x12#8]) ++ [0x30#8] := by
  decide

theorem witness_AssembledLinesDecode : assemble (.i2cRead 0x7F 65535) = some (.i2cRead 0x7F#8 65535#16) := by decide

theorem witness_HostSwapReplacesOneDevice : good.stream = [] ∧
    ({ good with phases := [⟨.swap 0x7F#7 (some (busy [])), [0x30#8]⟩, ⟨.swap 0x00#7 none, []⟩] }).phases =
      ⟨.swap 0x7F#7 (some (busy [])), [0x30#8]⟩ :: [⟨.swap 0x00#7 none, []⟩] ∧
    ¬ ended { good with phases := [⟨.swap 0x7F#7 (some (busy [])), [0x30#8]⟩, ⟨.swap 0x00#7 none, []⟩] } := by decide

/-- A state with a device, an event and a response meets the invariant, and its step gives a next state. -/
theorem witness_StepKeepsInvariant : Inv { good with
      stream := [0x30#8], status := 0x05#8, cmd := 1, rsps := [⟨0x05#8, []⟩], tx := 1
      hist := [.txW 0x50#7 [0x00#8] (.err .nack)] } ∧
    answer (step { good with
      stream := [0x30#8], status := 0x05#8, cmd := 1, rsps := [⟨0x05#8, []⟩], tx := 1
      hist := [.txW 0x50#7 [0x00#8] (.err .nack)] }) = some ⟨0x00#8, []⟩ := by
  refine ⟨⟨by decide, by decide, ?_, by decide, rfl, rfl, ?_, rfl⟩, by decide⟩
  · intro p hp
    cases hp
  · intro r hr
    cases List.mem_singleton.mp hr
    exact ⟨by decide, fun _ => rfl⟩

/-- The outcome and the state at the end of a byte-level run. -/
def runEnd (r : Option FsmRun) : Option (Fsm × Option BusOutcome) := r.map fun r => (r.state, r.outcome)

/-- Runs that complete, with the device and with no device; and the acknowledge that no absent device gives. -/
theorem witness_ByteLevelOutcomesAreAdmitted :
    runEnd (busSteps (bench (rested sample (some 0x05#8)) []) (.read 0x50#7 1) [.issue, .ack, .byteIn 0x15#8, .stopDone]
      .start) = some (.idle, some (.ok [0x15#8])) ∧
    runEnd (busSteps noDevice (.write 0x50#7 [0x05#8]) [.issue, .nack true, .stopDone] .start) =
      some (.idle, some (.err .absent)) ∧
    busSteps noDevice (.write 0x50#7 [0x05#8]) [.issue, .ack] .start = none ∧
    runEnd (fsmSteps (.write 0x50#7 [0x05#8]) [.issue, .ack, .ack, .stopDone] .start) = some (.idle, some (.ok [])) ∧
    runEnd (fsmSteps (.write 0x50#7 [0x05#8]) [.issue, .arbLost] .start) = some (.idle, some (.err .arbLost)) := by decide

/-- Admitted outcomes: Ok with a device, an error without one. -/
theorem witness_ByteLevelRealisesEveryOutcome : (Tx.write 0x50#7 [0x05#8]).carries ∧ (Tx.read 0x50#7 1).carries ∧
    (Tx.write 0x50#7 [0x05#8]).admits good (.ok []) ∧
    (Tx.read 0x50#7 1).admits (bench (rested sample (some 0x05#8)) []) (.ok [0x15#8]) ∧
    (Tx.read 0x50#7 1).admits noDevice (.err .unknown) :=
  ⟨List.cons_ne_nil _ _, Nat.zero_lt_one, ⟨okDraw, by decide⟩, ⟨okDraw, by decide⟩, ⟨errDraw .unknown, by decide⟩⟩

theorem witness_ByteLevelFraming : [0x05#8, 0x99#8] ≠ [] := by decide

theorem witness_DecoderReadsFirst128Bytes : 128 ≤ (List.replicate 128 0x00#8).length ∧ 128 ≤ image256.length := by
  decide +kernel

/-- Images that end where a field does. -/
theorem witness_DecoderMapsAsciiByteForByte : 21 ≤ (image31.take 21).length ∧ 25 ≤ (image31.take 25).length := by decide

/-- The versions of V9.1, and text at both ends of the printable range. -/
theorem witness_DecoderRoundTripsFields : image31[25]? = some 0x01#8 ∧ image31[26]? = some 0x02#8 ∧
    image31[27]? = some 0x0A#8 ∧ image31[28]? = some 0x0B#8 ∧ image31[29]? = some 0xFF#8 ∧ image31[30]? = some 0xFF#8 ∧
    [0x01#8, 0x02#8, 0x03#8, 0x04#8].length = 4 ∧
    (List.replicate 17 0x20#8).length = 17 ∧ (List.replicate 4 0x7E#8).length = 4 ∧
    (List.replicate 225 0x00#8).length = 225 ∧
    ∀ b ∈ List.replicate 17 0x20#8 ++ List.replicate 4 0x7E#8, 32 ≤ b.toNat ∧ b.toNat ≤ 126 := by decide +kernel

theorem witness_DecoderChecksumsAreCrcMessages : 4 ≤ (image256.take 4).length ∧ 64 ≤ (image256.take 64).length ∧
    128 ≤ (image256.take 128).length := by decide +kernel

/-- A device full of 0xFF. -/
theorem witness_DecodeOfReadEqualsDecodeOfImage : (0x50#8).getLsbD 7 = false ∧
    128 ≤ (benchOf 256 128 (rested [] none) [okDraw, okDraw]).cfg.maxXfer ∧
    128 ≤ (benchOf 256 128 (rested [] none) [okDraw, okDraw]).cfg.cap ∧
    ImageKnown (busAddr 0x50#8) (List.replicate 256 0xFF#8) (benchOf 256 128 (rested [] none) [okDraw, okDraw]) ∧
    (benchOf 256 128 (rested [] none) [okDraw, okDraw]).device (busAddr 0x50#8) = some (rested [] none) ∧
    (rested [] none).wcp = false ∧ ChannelReliable 2 (benchOf 256 128 (rested [] none) [okDraw, okDraw]) := by
  refine ⟨by decide, by decide, by decide, ⟨by decide +kernel, _, rfl, ?_⟩, by decide, by decide, by decide⟩
  intro o ho
  rw [List.getElem?_replicate]
  exact if_pos ho

end Sys2Proof.Tests
end

/-! ## The state: what every command and every step keeps, and what no command reads

Two tools carry these proofs. The invariant is kept by each operation on the state, so it is kept along a command's
channel operations (`BusRun`) and by a step. And a change of the state that the channel operations do not see
(`Unseen`) passes through every command unseen. -/

namespace Sys2Proof.Proofs

open Sys2Proof.Machine Sys2Proof.Safety Sys2Proof.Laws

/-! ### The end of a command -/

theorem legalStatus_ok : legalStatus statusOk = true := by decide

theorem legalStatus_error (e : Error) : legalStatus e.status = true := by
  cases e with
  | io c => cases c <;> decide
  | cfg r => cases r <;> decide
  | illegal r => cases r <;> decide

theorem rspWf_of_endsWith {st : Byte} {data : List Byte} (h : EndsWith st data) : rspWf ⟨st, data⟩ := by
  obtain rfl | ⟨rfl, e, rfl⟩ := h
  · exact ⟨legalStatus_ok, fun hne => absurd rfl hne⟩
  · exact ⟨legalStatus_error e, fun _ => rfl⟩

/-! ### Each operation keeps the invariant -/

theorem devicesWf_adjustKey {cap k : Nat} {f : Device → Device} {dev : List (Nat × Device)} (h : devicesWf cap dev)
    (hf : ∀ d : Device, Memory.wf cap d.mem → Memory.wf cap (f d).mem) : devicesWf cap (adjustKey k f dev) := by
  refine ⟨keysRising_adjustKey h.1, fun e he => ?_⟩
  rcases mem_adjustKey he with he | ⟨x, hx, -, rfl⟩
  · exact h.2 e he
  · exact ⟨(h.2 x hx).1, hf _ (h.2 x hx).2⟩

theorem devicesWf_rest {cap : Nat} {dev : List (Nat × Device)} (h : devicesWf cap dev) :
    devicesWf cap (dev.map fun e => (e.1, e.2.rest)) := by
  refine ⟨?_, fun e he => ?_⟩
  · rw [keysRising, keys_map]; exact h.1
  · obtain ⟨x, hx, rfl⟩ := List.mem_map.mp he
    exact h.2 x hx

theorem devicesWf_swapDevice {cap : Nat} {dev : List (Nat × Device)} (a : Addr7) (d : Option Device)
    (h : devicesWf cap dev) (hd : ∀ x, d = some x → Memory.wf cap x.mem) : devicesWf cap (swapDevice a d dev) := by
  cases d with
  | none => exact ⟨keysRising_eraseKey h.1, fun e he => h.2 e (mem_eraseKey he)⟩
  | some x =>
    refine ⟨keysRising_insertKey h.1, fun e he => ?_⟩
    rcases mem_insertKey he with rfl | he
    · exact ⟨a.isLt, hd x rfl⟩
    · exact h.2 e he

theorem inv_completeTx {s : State} {f : Device → Device} {e : Event} (a : Addr7) (h : Inv s) (he : isTx e = true)
    (hf : ∀ d : Device, Memory.wf s.cfg.cap d.mem → Memory.wf s.cfg.cap (f d).mem) : Inv (completeTx a f e s) :=
  { h with
    devices := devicesWf_adjustKey h.devices hf
    transceiver := rfl
    transactions := by simp [List.countP_append, he, h.transactions] }

theorem inv_i2cWrite {s : State} (a : Addr7) (bs : List Byte) (h : Inv s) : Inv (i2cWrite a bs s).2 :=
  inv_completeTx a h rfl fun _ => Device.wf_afterWrite

theorem inv_i2cRead {s : State} (a : Addr7) (n : Nat) (h : Inv s) : Inv (i2cRead a n s).2 :=
  inv_completeTx a h rfl fun _ => Device.wf_afterRead

theorem inv_waitWriteCycle {s : State} (h : Inv s) : Inv (waitWriteCycle s) :=
  { h with
    devices := devicesWf_rest h.devices
    transactions := by simp [List.countP_append, isTx, h.transactions] }

theorem inv_busRun {s t : State} (hs : Inv s) (h : BusRun s t) : Inv t := by
  induction h with
  | refl => exact hs
  | write a bs _ ih => exact inv_i2cWrite a bs ih
  | read a n _ ih => exact inv_i2cRead a n ih
  | wait _ ih => exact inv_waitWriteCycle ih

theorem inv_withCrc {s : State} (c : Crc) (h : Inv s) : Inv (s.withCrc c) := { h with }

theorem inv_withStream {s : State} (bs : List Byte) (h : Inv s) : Inv (s.withStream bs) := { h with }

theorem inv_respond {s : State} {st : Byte} {data : List Byte} (h : Inv s) (he : EndsWith st data) :
    Inv (respond st data s) :=
  { h with
    status := (rspWf_of_endsWith he).1
    responses := by simp [h.responses]
    responsesWf := by
      intro r hr
      rcases List.mem_append.mp hr with hr | hr
      · exact h.responsesWf r hr
      · rw [List.mem_singleton.mp hr]; exact rspWf_of_endsWith he }

theorem inv_exec {i : Instr} {s t : State} (h : Inv s) (ht : exec i s = .next t) : Inv t := by
  obtain ⟨st, data, u, c, hu, he, hx⟩ := exec_ends i s
  cases hx.symm.trans ht
  exact inv_respond (inv_withCrc c (inv_busRun h hu)) he

theorem inv_hostAct {s : State} {p : Phase} (h : Inv s) (hp : phaseWf s.cfg.cap p) : Inv (hostAct p.act s) := by
  obtain ⟨act, bs⟩ := p
  cases act with
  | swap a d =>
    refine { h with devices := devicesWf_swapDevice a d h.devices fun x hx => ?_ }
    subst hx
    exact hp
  | reset => exact { h with status := legalStatus_ok, transceiver := rfl }

@[simp] theorem hostAct_cfg (act : HostAct) (s : State) : (hostAct act s).cfg = s.cfg := by cases act <;> rfl

/-- Settles O50: a step is a command, an unassigned opcode or an act of the host, and each keeps the invariant. -/
theorem stepKeepsInvariant : Obligations.StepKeepsInvariant := by
  intro s t h hst
  obtain ⟨i, rest, -, ht⟩ | ⟨op, rest, -, rfl⟩ | ⟨p, ps, -, hp, -, rfl⟩ := step_cases hst
  · exact inv_exec (inv_withStream rest h) ht
  · exact inv_respond (inv_withStream rest h) (.error _)
  · have hsw : ∀ q ∈ p :: ps, phaseWf s.cfg.cap q := hp ▸ h.swaps
    have ha := inv_hostAct h (hsw p List.mem_cons_self)
    refine { ha with swaps := fun q hq => ?_ }
    rw [hostAct_cfg]
    exact hsw q (List.mem_cons_of_mem p hq)

/-! ### What every command does -/

/-- Settles O10: every command ends with one response after its channel operations, which give none. -/
theorem everyCommandRespondsOnce : Obligations.EveryCommandRespondsOnce := by
  intro i s
  obtain ⟨st, data, t, c, ht, he, hx⟩ := exec_ends i s
  obtain ⟨-, -, hcmd, hrsps, -⟩ := ht.kept
  obtain ⟨hst, hdata⟩ := rspWf_of_endsWith he
  exact ⟨_, st, data, hx, ⟨rfl, by simp [hrsps], by simp [hcmd]⟩, hst, hdata⟩

/-- Settles O14: neither the channel operations nor the command's end touch these. -/
theorem commandsKeepDomainAndLaunch : Obligations.CommandsKeepDomainAndLaunch := by
  intro i s
  obtain ⟨st, data, t, c, ht, -, hx⟩ := exec_ends i s
  obtain ⟨-, -, -, -, hcfg, hstream, hphases⟩ := ht.kept
  refine ⟨_, hx, fun b => ?_, hcfg, hstream, hphases⟩
  have hcycle : (t.device b).map Device.cycle = (s.device b).map Device.cycle := ht.cycle b
  have hpresent := congrArg Option.isSome hcycle
  rw [Option.isSome_map, Option.isSome_map] at hpresent
  exact ⟨hpresent, hcycle⟩

/-! ### Changes of the state that no channel operation sees -/

/-- The result with its next state changed. -/
def mapNext (ψ : State → State) : Result → Result
  | .next t => .next (ψ t)
  | .fault r => .fault r
  | .refused r => .refused r

@[simp] theorem mapNext_next (ψ : State → State) (t : State) : mapNext ψ (.next t) = .next (ψ t) := rfl

@[simp] theorem mapNext_id (r : Result) : mapNext id r = r := by cases r <;> rfl

/-- The channel operations do not see the change `φ` of the state, and the command's end turns it into `ψ`. -/
structure Unseen (φ ψ : State → State) : Prop where
  cfg : ∀ s, (φ s).cfg = s.cfg
  device : ∀ s a, (φ s).device a = s.device a
  draw : ∀ s k, (φ s).draw k = s.draw k
  tx : ∀ s, (φ s).tx = s.tx
  completeTx : ∀ a f e s, completeTx a f e (φ s) = φ (completeTx a f e s)
  wait : ∀ s, waitWriteCycle (φ s) = φ (waitWriteCycle s)
  respond : ∀ st data s, respond st data (φ s) = ψ (respond st data s)

/-- The change leaves the CRC register alone. -/
structure CrcApart (φ : State → State) : Prop where
  crc : ∀ s, (φ s).crc = s.crc
  withCrc : ∀ s c, (φ s).withCrc c = φ (s.withCrc c)

section
variable {φ ψ : State → State} (h : Unseen φ ψ)
include h

theorem Unseen.finish (data : List Byte) (s : State) : finish data (φ s) = mapNext ψ (finish data s) := by
  simp [h.respond]

theorem Unseen.raise (e : Error) (s : State) : raise e (φ s) = mapNext ψ (raise e s) := by
  simp [h.respond]

theorem Unseen.i2cWrite (a : Addr7) (bs : List Byte) (s : State) :
    i2cWrite a bs (φ s) = Prod.map id φ (i2cWrite a bs s) := by
  simp [Machine.i2cWrite, h.cfg, h.device, h.draw, h.tx, h.completeTx]

theorem Unseen.i2cRead (a : Addr7) (n : Nat) (s : State) :
    i2cRead a n (φ s) = Prod.map id φ (i2cRead a n s) := by
  simp [Machine.i2cRead, h.cfg, h.device, h.draw, h.tx, h.completeTx]

theorem Unseen.eeWriteLoop (a : Addr7) (o : Nat) (d : List Byte) (s : State) :
    eeWriteLoop a o d (φ s) = Prod.map id φ (eeWriteLoop a o d s) := by
  induction d generalizing o s with
  | nil => rfl
  | cons v vs ih =>
    simp only [Machine.eeWriteLoop, h.i2cWrite]
    rcases Machine.i2cWrite a [offsetByte o, v] s with ⟨_ | c, t⟩
    · exact (congrArg _ (h.wait t)).trans (ih (o + 1) (waitWriteCycle t))
    · rfl

theorem Unseen.finishRead (r : ReadOutcome × State) :
    finishRead (Prod.map id φ r) = mapNext ψ (finishRead r) := by
  obtain ⟨bs | c, t⟩ := r
  · exact h.finish bs t
  · exact h.raise (.io c) t

theorem Unseen.execI2cWrite (a : Byte) (d : List Byte) (s : State) :
    execI2cWrite a d (φ s) = mapNext ψ (execI2cWrite a d s) := by
  unfold Machine.execI2cWrite
  rw [h.cfg, h.i2cWrite]
  split
  · exact h.raise _ s
  · split
    · exact h.raise _ s
    · rcases Machine.i2cWrite (busAddr a) d s with ⟨_ | c, t⟩
      · exact h.finish [] t
      · exact h.raise (.io c) t

theorem Unseen.execI2cRead (a : Byte) (n : Count) (s : State) :
    execI2cRead a n (φ s) = mapNext ψ (execI2cRead a n s) := by
  unfold Machine.execI2cRead
  rw [h.cfg, h.i2cRead]
  split
  · exact h.raise _ s
  · split
    · exact h.raise _ s
    · exact h.finishRead _

theorem Unseen.execEeRead (a : Byte) (off : Off8) (n : Count) (s : State) :
    execEeRead a off n (φ s) = mapNext ψ (execEeRead a off n s) := by
  unfold Machine.execEeRead
  rw [h.cfg, h.i2cWrite]
  split
  · exact h.raise _ s
  · split
    · exact h.raise _ s
    · split
      · exact h.raise _ s
      · rcases Machine.i2cWrite (busAddr a) [off] s with ⟨_ | c, t⟩
        · exact (congrArg _ (h.i2cRead (busAddr a) n.toNat t)).trans (h.finishRead _)
        · exact h.raise (.io c) t

theorem Unseen.execEeWrite (a : Byte) (off : Off8) (d : List Byte) (s : State) :
    execEeWrite a off d (φ s) = mapNext ψ (execEeWrite a off d s) := by
  unfold Machine.execEeWrite
  rw [h.cfg, h.eeWriteLoop]
  split
  · exact h.raise _ s
  · split
    · exact h.raise _ s
    · rcases Machine.eeWriteLoop (busAddr a) off.toNat d s with ⟨_ | c, t⟩
      · exact h.finish [] t
      · exact h.raise (.io c) t

theorem Unseen.execWaitWc (s : State) : execWaitWc (φ s) = mapNext ψ (execWaitWc s) :=
  (congrArg _ (h.wait s)).trans (h.finish [] (waitWriteCycle s))

theorem Unseen.finish_withCrc (hc : CrcApart φ) (data : List Byte) (c : Crc) (s : State) :
    Machine.finish data ((φ s).withCrc c) = mapNext ψ (Machine.finish data (s.withCrc c)) := by
  rw [hc.withCrc, h.finish]

/-- A change that the channel operations do not see passes through every command that it may: one outside C5G, or any
command if the change leaves the CRC register alone. -/
theorem Unseen.exec (i : Instr) (s : State) (hi : usesCrc i = false ∨ CrcApart φ) :
    exec i (φ s) = mapNext ψ (exec i s) := by
  cases i with
  | i2cWrite a d => exact h.execI2cWrite a d s
  | i2cRead a n => exact h.execI2cRead a n s
  | eeRead a off n => exact h.execEeRead a off n s
  | eeWrite a off d => exact h.execEeWrite a off d s
  | waitWc => exact h.execWaitWc s
  | crcInit =>
    have hc := hi.resolve_left nofun
    simp only [Machine.exec, execCrcInit, h.cfg, h.finish_withCrc hc]
  | crcBit d8 =>
    have hc := hi.resolve_left nofun
    simp only [Machine.exec, execCrcBit, h.cfg, hc.crc, h.finish_withCrc hc]
    split
    · exact h.raise _ s
    · rfl
  | crcByte d8 =>
    have hc := hi.resolve_left nofun
    simp only [Machine.exec, execCrcByte, h.cfg, hc.crc, h.finish_withCrc hc]
  | crcRead =>
    have hc := hi.resolve_left nofun
    simp only [Machine.exec, execCrcRead, hc.crc, h.finish]
  | crcMsg d =>
    have hc := hi.resolve_left nofun
    simp only [Machine.exec, execCrcMsg, h.cfg, h.finish_withCrc hc]

end

/-- STATUS is overwritten at the command's end, so its change is lost there. -/
theorem unseen_status (st : Byte) : Unseen (fun s => { s with status := st }) id where
  cfg _ := rfl
  device _ _ := rfl
  draw _ _ := rfl
  tx _ := rfl
  completeTx _ _ _ _ := rfl
  wait _ := rfl
  respond _ _ _ := rfl

theorem unseen_crc (c : Crc) : Unseen (fun s => s.withCrc c) (fun s => s.withCrc c) where
  cfg _ := rfl
  device _ _ := rfl
  draw _ _ := rfl
  tx _ := rfl
  completeTx _ _ _ _ := rfl
  wait _ := rfl
  respond _ _ _ := rfl

/-- The state with the events `h` before its own. -/
def withPast (h : List Event) (s : State) : State := { s with hist := h ++ s.hist }

theorem unseen_past (h : List Event) : Unseen (withPast h) (withPast h) where
  cfg _ := rfl
  device _ _ := rfl
  draw _ _ := rfl
  tx _ := rfl
  completeTx a f e s := by simp [withPast, completeTx]
  wait s := by simp [withPast, waitWriteCycle]
  respond _ _ _ := rfl

/-- Every history is a past before the empty one. -/
theorem withPast_emptyHist (h : List Event) (s : State) : withPast h { s with hist := [] } = { s with hist := h } := by
  simp [withPast]

/-- Settles O11: the channel operations do not see STATUS, and the response overwrites it. -/
theorem statusIsNeverRead : Obligations.StatusIsNeverRead := by
  intro i s st
  rw [(unseen_status st).exec i s (.inr ⟨fun _ => rfl, fun _ _ => rfl⟩), mapNext_id]

/-- A command outside C5G leaves the CRC register alone. -/
theorem exec_bus {i : Instr} (s : State) (hi : usesCrc i = false) : BusCommand s (exec i s) := by
  cases i with
  | i2cWrite a d => exact execI2cWrite_bus a d s
  | i2cRead a n => exact execI2cRead_bus a n s
  | eeRead a off n => exact execEeRead_bus a off n s
  | eeWrite a off d => exact execEeWrite_bus a off d s
  | waitWc => exact execWaitWc_bus s
  | crcInit | crcBit | crcByte | crcRead | crcMsg => cases hi

/-- Settles O12: such a command is channel operations and a response; they keep CRC and do not see it. -/
theorem onlyCrcCommandsUseCrc : Obligations.OnlyCrcCommandsUseCrc := by
  intro i s c hi
  obtain ⟨st, data, t, ht, -, hx⟩ := exec_bus s hi
  obtain ⟨hcrc, -⟩ := ht.kept
  have hc := (unseen_crc c).exec i s (.inl hi)
  rw [hx, mapNext_next] at hc
  exact ⟨_, hx, hcrc, hc⟩

/-- Settles O13: run the command on an empty history; any other history is a past before it. -/
theorem historyIsAppendOnly : Obligations.HistoryIsAppendOnly := by
  intro i s
  obtain ⟨st, data, u, c, -, -, hx⟩ := exec_ends i { s with hist := [] }
  have hpast : ∀ h, exec i { s with hist := h } = .next (withPast h (respond st data (u.withCrc c))) := by
    intro h
    rw [← withPast_emptyHist, (unseen_past h).exec i _ (.inr ⟨fun _ => rfl, fun _ _ => rfl⟩), hx, mapNext_next]
  exact ⟨_, u.hist, hpast s.hist, rfl, hpast⟩

/-! ### Frames and the end of the run -/

/-- The payload behind the two bytes of its own length. -/
theorem withPayload_ownLength {d : List Byte} (rest : List Byte) (mk : List Byte → Instr)
    (hd : payloadFits d = true) :
    withPayload
      (countOf ((BitVec.ofNat 16 d.length).extractLsb' 8 8) ((BitVec.ofNat 16 d.length).extractLsb' 0 8))
      (d ++ rest) mk = .instr (mk d) rest := by
  rw [countOf_countBytes, withPayload_of_fits rest mk (of_decide_eq_true hd)]

/-- R91, R101: a command's frame decodes to the command, and the bytes after it are left. The opcode of a frame is a
literal, so the decoder computes as far as the count field. -/
theorem decode_encode {i : Instr} (rest : List Byte) (hi : i.wellFormed = true) :
    decode (encode i ++ rest) = .instr i rest := by
  cases i with
  | crcInit | crcBit | crcByte | crcRead | waitWc => rfl
  | i2cRead a n => exact congrArg (fun m => Decoded.instr (.i2cRead a m) rest) (countOf_countBytes n)
  | eeRead a off n => exact congrArg (fun m => Decoded.instr (.eeRead a off m) rest) (countOf_countBytes n)
  | crcMsg d => exact withPayload_ownLength rest .crcMsg hi
  | i2cWrite a d => exact withPayload_ownLength rest (.i2cWrite a) hi
  | eeWrite a off d => exact withPayload_ownLength rest (.eeWrite a off) hi

theorem step_of_decode {s : State} {i : Instr} {rest : List Byte} (h : decode s.stream = .instr i rest) :
    step s = exec i (s.withStream rest) := by
  have hs : s.stream ≠ [] := by
    intro hs
    rw [hs] at h
    cases h
  rw [step, fetch, if_neg hs, h]

/-- Settles O46: the frame at the head of the stream decodes to its command. -/
theorem stepRunsDecodedFrame : Obligations.StepRunsDecodedFrame := by
  intro s i rest hi hs
  exact step_of_decode (hs ▸ decode_encode rest hi)

theorem hostTurn_eq_runEnded_iff (s : State) : hostTurn s = .fault .runEnded ↔ ∀ p ∈ s.phases, p.stream = [] := by
  unfold hostTurn
  cases s.phases with
  | nil => simp
  | cons p ps =>
    by_cases hf : framesLeft (p :: ps) = true
    · simpa [hf] using (framesLeft_iff (p :: ps)).mp hf
    · simpa [hf] using Classical.not_not.mp (mt (framesLeft_iff (p :: ps)).mpr hf)

theorem exec_ne_fault (i : Instr) (s : State) (r : Fault) : exec i s ≠ .fault r := by
  obtain ⟨st, data, t, c, -, -, hx⟩ := exec_ends i s
  simp [hx]

theorem step_ne_runEnded {s : State} (hs : s.stream ≠ []) : step s ≠ .fault .runEnded := by
  rw [step, fetch, if_neg hs]
  cases decode s.stream with
  | instr i rest => exact exec_ne_fault i _ _
  | badOp op rest => simp [execUnassigned]
  | incomplete => simp

/-- Settles O22: only the host's turn, on an empty stream, ends the run, and then exactly when no act brings a frame. -/
theorem runEndsWhenHostIsDone : Obligations.RunEndsWhenHostIsDone := by
  intro s
  by_cases hs : s.stream = []
  · rw [step, fetch, if_pos hs, hostTurn_eq_runEnded_iff]
    simp [ended, hs]
  · simp [ended, hs, step_ne_runEnded]

end Sys2Proof.Proofs

/-! ## The devices: what each command does to the one it addresses, and leaves of the others

A raw transaction with a present device, or each of EE_READ's two, is one equation about `completeTx`; what it leaves in
the device is `Device.afterWrite` or `Device.afterRead`, shape by shape (R54 to R62). What a whole command can issue is
said once (`issues`, `TxRun`); frames and the write cycle follow along such a run. -/

namespace Sys2Proof.Proofs

open Sys2Proof.Machine Sys2Proof.Safety Sys2Proof.Laws

/-! ### The operand checks -/

theorem addrReserved_eq_false {a : Byte} (h : a.getLsbD 7 = false) : addrReserved a = false := h

theorem badLength_eq_false_iff {p : Params} {n : Nat} : badLength p n = false ↔ 1 ≤ n ∧ n ≤ p.maxXfer := by
  simp [badLength, Nat.one_le_iff_ne_zero]

theorem pastCapacity_eq_false_iff {p : Params} {off : Off8} {n : Nat} :
    pastCapacity p off n = false ↔ off.toNat + n ≤ p.cap := by
  simp [pastCapacity]

/-! ### What a command reports of its last transaction -/

theorem status_io (c : Cause) : (Error.io c).status = ioStatus c := by cases c <;> rfl

theorem status_error_ne_ok (e : Error) : e.status ≠ 0x00#8 := by
  cases e with
  | io c => cases c <;> decide
  | cfg r => cases r <;> decide
  | illegal r => cases r <;> decide

/-- STATUS of a command that ends with this write (R123, R241). -/
def writeStatus : WriteOutcome → Byte
  | .ok => 0x00#8
  | .err c => ioStatus c

/-- STATUS of a command that ends with this read (R124, R241). -/
def readStatus : ReadOutcome → Byte
  | .ok _ => 0x00#8
  | .err c => ioStatus c

/-- The response bytes of a command that ends with this read (R124). -/
def readData : ReadOutcome → List Byte
  | .ok bs => bs
  | .err _ => []

theorem finishRead_eq (r : ReadOutcome × State) :
    finishRead r = .next (respond (readStatus r.1) (readData r.1) r.2) := by
  obtain ⟨bs | c, t⟩ := r
  · rfl
  · exact congrArg (fun st => Host.Outcome.next (respond st [] t)) (status_io c)

theorem raise_io (c : Cause) (t : State) : raise (.io c) t = .next (respond (ioStatus c) [] t) := by
  rw [raise_eq, status_io]

/-- The end of a command whose last act is a write, as `finishRead` is of one whose last act is a read. -/
def finishWrite (r : WriteOutcome × State) : Result := .next (respond (writeStatus r.1) [] r.2)

theorem finishWrite_err (c : Cause) (t : State) : finishWrite (.err c, t) = raise (.io c) t := (raise_io c t).symm

/-! ### The commands as their transactions -/

theorem execI2cWrite_eq (a : Byte) (bs : List Byte) (s : State) :
    execI2cWrite a bs s =
      if addrReserved a then raise (.illegal .rsvd) s
      else if badLength s.cfg bs.length then raise (.cfg .length) s
      else finishWrite (i2cWrite (busAddr a) bs s) := by
  unfold execI2cWrite
  rcases i2cWrite (busAddr a) bs s with ⟨_ | c, t⟩
  · rfl
  · rw [finishWrite_err]

theorem execEeWrite_eq (a : Byte) (off : Off8) (bs : List Byte) (s : State) :
    execEeWrite a off bs s =
      if addrReserved a then raise (.illegal .rsvd) s
      else if pastCapacity s.cfg off bs.length then raise (.cfg .capacity) s
      else finishWrite (eeWriteLoop (busAddr a) off.toNat bs s) := by
  unfold execEeWrite
  rcases eeWriteLoop (busAddr a) off.toNat bs s with ⟨_ | c, t⟩
  · rfl
  · rw [finishWrite_err]

section Equations
variable {s : State} {a : Byte}

theorem exec_i2cWrite {bs : List Byte} (ha : a.getLsbD 7 = false) (hpos : 1 ≤ bs.length)
    (hmax : bs.length ≤ s.cfg.maxXfer) :
    exec (.i2cWrite a bs) s = finishWrite (i2cWrite (busAddr a) bs s) := by
  show execI2cWrite a bs s = _
  rw [execI2cWrite_eq, addrReserved_eq_false ha, badLength_eq_false_iff.mpr ⟨hpos, hmax⟩]
  rfl

theorem exec_i2cRead {n : Count} (ha : a.getLsbD 7 = false) (hpos : 1 ≤ n.toNat) (hmax : n.toNat ≤ s.cfg.maxXfer) :
    exec (.i2cRead a n) s = finishRead (i2cRead (busAddr a) n.toNat s) := by
  show execI2cRead a n s = _
  unfold execI2cRead
  rw [addrReserved_eq_false ha, badLength_eq_false_iff.mpr ⟨hpos, hmax⟩]
  rfl

/-- EE_READ whose pointer write succeeds ends with its read. -/
theorem exec_eeRead_of_pointer_ok {off : Off8} {n : Count} {t : State} (ha : a.getLsbD 7 = false)
    (hpos : 1 ≤ n.toNat) (hmax : n.toNat ≤ s.cfg.maxXfer) (hcap : off.toNat + n.toNat ≤ s.cfg.cap)
    (hw : i2cWrite (busAddr a) [off] s = (.ok, t)) :
    exec (.eeRead a off n) s = finishRead (i2cRead (busAddr a) n.toNat t) := by
  show execEeRead a off n s = _
  unfold execEeRead
  rw [addrReserved_eq_false ha, badLength_eq_false_iff.mpr ⟨hpos, hmax⟩, pastCapacity_eq_false_iff.mpr hcap, hw]
  rfl

/-- EE_READ ends at a failing pointer write (R152). -/
theorem exec_eeRead_of_pointer_err {off : Off8} {n : Count} {c : Cause} {t : State} (ha : a.getLsbD 7 = false)
    (hpos : 1 ≤ n.toNat) (hmax : n.toNat ≤ s.cfg.maxXfer) (hcap : off.toNat + n.toNat ≤ s.cfg.cap)
    (hw : i2cWrite (busAddr a) [off] s = (.err c, t)) :
    exec (.eeRead a off n) s = .next (respond (ioStatus c) [] t) := by
  show execEeRead a off n s = _
  unfold execEeRead
  rw [addrReserved_eq_false ha, badLength_eq_false_iff.mpr ⟨hpos, hmax⟩, pastCapacity_eq_false_iff.mpr hcap, hw]
  exact raise_io c t

/-- EE_READ passes its checks, or raises an error and does nothing else. -/
theorem exec_eeRead_checks (a off : Byte) (n : Count) (s : State) :
    (a.getLsbD 7 = false ∧ 1 ≤ n.toNat ∧ n.toNat ≤ s.cfg.maxXfer ∧ off.toNat + n.toNat ≤ s.cfg.cap) ∨
    ∃ e : Error, exec (.eeRead a off n) s = .next (respond e.status [] s) := by
  show _ ∨ ∃ e : Error, execEeRead a off n s = _
  unfold execEeRead
  by_cases ha : addrReserved a = true
  · exact .inr ⟨_, if_pos ha⟩
  rw [if_neg ha]
  by_cases hlen : badLength s.cfg n.toNat = true
  · exact .inr ⟨_, if_pos hlen⟩
  rw [if_neg hlen]
  by_cases hcap : pastCapacity s.cfg off n.toNat = true
  · exact .inr ⟨_, if_pos hcap⟩
  rw [Bool.not_eq_true] at ha hlen hcap
  obtain ⟨hpos, hmax⟩ := badLength_eq_false_iff.mp hlen
  exact .inl ⟨ha, hpos, hmax, pastCapacity_eq_false_iff.mp hcap⟩

theorem exec_eeWrite {off : Off8} {bs : List Byte} (ha : a.getLsbD 7 = false)
    (hcap : off.toNat + bs.length ≤ s.cfg.cap) :
    exec (.eeWrite a off bs) s = finishWrite (eeWriteLoop (busAddr a) off.toNat bs s) := by
  show execEeWrite a off bs s = _
  rw [execEeWrite_eq, addrReserved_eq_false ha, pastCapacity_eq_false_iff.mpr hcap]
  rfl

theorem offsetByte_toNat (off : Off8) : offsetByte off.toNat = off := by
  rw [offsetByte, BitVec.ofNat_toNat, BitVec.setWidth_eq]

/-- EE_WRITE of at least one byte ends at its first transaction if that fails (R157). -/
theorem exec_eeWrite_of_first_err {off v : Byte} {vs : List Byte} {c : Cause} {t : State} (ha : a.getLsbD 7 = false)
    (hcap : off.toNat + (v :: vs).length ≤ s.cfg.cap)
    (hw : i2cWrite (busAddr a) [off, v] s = (.err c, t)) :
    exec (.eeWrite a off (v :: vs)) s = .next (respond (ioStatus c) [] t) := by
  rw [exec_eeWrite ha hcap, eeWriteLoop, offsetByte_toNat, hw]
  rfl

end Equations

/-! ### One transaction -/

/-- A write as its outcome and the end of its transaction. -/
theorem i2cWrite_eq {s : State} {a : Addr7} {r : WriteOutcome} (bs : List Byte)
    (hr : writeOutcome (s.draw 0) (s.device a) = r) :
    i2cWrite a bs s = (r, completeTx a (Device.afterWrite s.cfg.cap s.tx bs r) (.txW a bs r) s) := by
  subst hr; rfl

/-- A read as its outcome and the end of its transaction. -/
theorem i2cRead_eq {s : State} {a : Addr7} {n : Nat} {r : ReadOutcome}
    (hr : readOutcome s.cfg s.tx n (s.draw 0) (s.device a) = r) :
    i2cRead a n s = (r, completeTx a (Device.afterRead s.cfg.cap s.tx) (.txR a n r) s) := by
  subst hr; rfl

/-- A command that logged `es` and reported `st` and `data`: beside HIST and its report, the device at `a` is all that
it may have changed. -/
def Performed (a : Addr7) (es : List Event) (st : Byte) (data : List Byte) (s t : State) : Prop :=
  OthersKept a s t ∧ t.hist = s.hist ++ es ∧ Reported s t st data ∧ Kept s t

theorem performed_completeTx (a : Addr7) (f : Device → Device) (e : Event) (st : Byte) (data : List Byte) (s : State) :
    Performed a [e] st data s (respond st data (completeTx a f e s)) :=
  ⟨fun _ hb => device_completeTx_other f e s hb, rfl, ⟨rfl, rfl, rfl⟩, rfl, rfl, rfl, rfl⟩

theorem performed_completeTx_twice (a : Addr7) (f g : Device → Device) (e e' : Event) (st : Byte) (data : List Byte)
    (s : State) :
    Performed a [e, e'] st data s (respond st data (completeTx a g e' (completeTx a f e s))) := by
  refine ⟨fun b hb => ?_, by simp, ⟨rfl, rfl, rfl⟩, rfl, rfl, rfl, rfl⟩
  rw [device_respond, device_completeTx_other _ _ _ hb, device_completeTx_other _ _ _ hb]

/-! ### The commands with a present device -/

section Present
variable {s : State} {a : Byte} {d : Device} (ha : a.getLsbD 7 = false) (hd : s.device (busAddr a) = some d)
include ha hd

theorem i2cWrite_present {bs : List Byte} {r : WriteOutcome} (hpos : 1 ≤ bs.length)
    (hmax : bs.length ≤ s.cfg.maxXfer) (hr : writeOutcome (s.draw 0) (some d) = r) :
    ∃ t, exec (.i2cWrite a bs) s = .next t ∧
      t.device (busAddr a) = some (d.afterWrite s.cfg.cap s.tx bs r) ∧
      Performed (busAddr a) [.txW (busAddr a) bs r] (writeStatus r) [] s t := by
  have hx := exec_i2cWrite ha hpos hmax
  rw [i2cWrite_eq bs (hd ▸ hr)] at hx
  exact ⟨_, hx, by simp [hd], performed_completeTx ..⟩

theorem i2cRead_present {n : Count} {r : ReadOutcome} (hpos : 1 ≤ n.toNat) (hmax : n.toNat ≤ s.cfg.maxXfer)
    (hr : readOutcome s.cfg s.tx n.toNat (s.draw 0) (some d) = r) :
    ∃ t, exec (.i2cRead a n) s = .next t ∧ t.device (busAddr a) = some (d.afterRead s.cfg.cap s.tx) ∧
      Performed (busAddr a) [.txR (busAddr a) n.toNat r] (readStatus r) (readData r) s t := by
  have hx := exec_i2cRead ha hpos hmax
  rw [i2cRead_eq (hd ▸ hr), finishRead_eq] at hx
  exact ⟨_, hx, by simp [hd], performed_completeTx ..⟩

theorem eeRead_present_pointer_err {off : Off8} {n : Count} {c : Cause} (hpos : 1 ≤ n.toNat)
    (hmax : n.toNat ≤ s.cfg.maxXfer) (hcap : off.toNat + n.toNat ≤ s.cfg.cap)
    (hw : writeOutcome (s.draw 0) (some d) = .err c) :
    ∃ t, exec (.eeRead a off n) s = .next t ∧
      t.device (busAddr a) = some (d.afterWrite s.cfg.cap s.tx [off] (.err c)) ∧
      Performed (busAddr a) [.txW (busAddr a) [off] (.err c)] (ioStatus c) [] s t :=
  ⟨_, exec_eeRead_of_pointer_err ha hpos hmax hcap (i2cWrite_eq [off] (hd ▸ hw)), by simp [hd],
    performed_completeTx ..⟩

theorem eeRead_present_pointer_ok {off : Off8} {n : Count} {r : ReadOutcome} (hpos : 1 ≤ n.toNat)
    (hmax : n.toNat ≤ s.cfg.maxXfer) (hcap : off.toNat + n.toNat ≤ s.cfg.cap)
    (hw : writeOutcome (s.draw 0) (some d) = .ok)
    (hr : readOutcome s.cfg (s.tx + 1) n.toNat (s.draw 1) (some (d.afterWrite s.cfg.cap s.tx [off] .ok)) = r) :
    ∃ t, exec (.eeRead a off n) s = .next t ∧
      t.device (busAddr a) = some ((d.afterWrite s.cfg.cap s.tx [off] .ok).afterRead s.cfg.cap (s.tx + 1)) ∧
      Performed (busAddr a) [.txW (busAddr a) [off] .ok, .txR (busAddr a) n.toNat r] (readStatus r) (readData r)
        s t := by
  have hx := exec_eeRead_of_pointer_ok ha hpos hmax hcap (i2cWrite_eq [off] (hd ▸ hw))
  rw [i2cRead_eq (r := r) (by simpa [hd] using hr), finishRead_eq] at hx
  exact ⟨_, hx, by simp [hd], performed_completeTx_twice ..⟩

theorem eeWrite_present_first_err {off v : Byte} {vs : List Byte} {c : Cause}
    (hcap : off.toNat + (v :: vs).length ≤ s.cfg.cap) (hw : writeOutcome (s.draw 0) (some d) = .err c) :
    ∃ t, exec (.eeWrite a off (v :: vs)) s = .next t ∧
      t.device (busAddr a) = some (d.afterWrite s.cfg.cap s.tx [off, v] (.err c)) ∧
      Performed (busAddr a) [.txW (busAddr a) [off, v] (.err c)] (ioStatus c) [] s t :=
  ⟨_, exec_eeWrite_of_first_err ha hcap (i2cWrite_eq [off, v] (hd ▸ hw)), by simp [hd], performed_completeTx ..⟩

end Present

/-! ### The device after a transaction, at rest and in its write cycle -/

section Effects
variable {cap t : Nat} {d : Device}

theorem havocked_havoc (cap t : Nat) (d : Device) : Havocked cap t (d.havoc cap t) :=
  ⟨rfl, fun o ho => Memory.read_fill cap o _ ho⟩

theorem havocked_havocBusy (cap t : Nat) (d : Device) : Havocked cap t (d.havocBusy cap t) := havocked_havoc cap t d

theorem afterWrite_ok (hd : d.wcp = false) (bs : List Byte) : d.afterWrite cap t bs .ok = d.writeOk cap t bs := by
  simp [Device.afterWrite, hd]

theorem afterWrite_err (hd : d.wcp = false) (bs : List Byte) (c : Cause) :
    d.afterWrite cap t bs (.err c) = d.writeErr cap t bs := by
  simp [Device.afterWrite, hd]

theorem afterRead_atRest (hd : d.wcp = false) : d.afterRead cap t = { d with ptr := none } := by
  simp [Device.afterRead, hd]

theorem afterWrite_busy (hd : d.wcp = true) (bs : List Byte) (r : WriteOutcome) :
    d.afterWrite cap t bs r = d.havoc cap t := by
  simp [Device.afterWrite, hd]

theorem afterRead_busy (hd : d.wcp = true) : d.afterRead cap t = d.havoc cap t := by
  simp [Device.afterRead, hd]

/-- R56, R61: a store changes the byte at its offset and no other. -/
theorem read_store (d : Device) (o : Off8) (v : Byte) (x : Nat) :
    Memory.read (d.store o v).mem x = if x = o.toNat then v else Memory.read d.mem x :=
  Memory.read_write d.mem o.toNat x v

/-- R57, R58: the writes that havoc a device at rest. -/
theorem writeOk_otherShape {bs : List Byte}
    (h : (∃ o v, bs = [o, v] ∧ cap ≤ o.toNat) ∨ 3 ≤ bs.length) : d.writeOk cap t bs = d.havocBusy cap t := by
  obtain ⟨o, v, rfl, ho⟩ | h := h
  · exact if_neg (Nat.not_lt.mpr ho)
  · match bs, h with
    | _ :: _ :: _ :: _, _ => rfl

/-- R61: what a failed write leaves in a device at rest, by the shape of its bytes. -/
theorem writeErr_shape (cap t : Nat) (d : Device) {bs : List Byte} (hpos : 1 ≤ bs.length) :
    if bs.length = 1 then d.writeErr cap t bs = { d with ptr := none }
    else if bs.length = 2 ∧ (bs.headD 0x00#8).toNat < cap then
      (d.writeErr cap t bs).ptr = none ∧ (d.writeErr cap t bs).wcp = true ∧
        ∀ x, Memory.read (d.writeErr cap t bs).mem x =
          if x = (bs.headD 0x00#8).toNat then Config.freeMemByte t x else Memory.read d.mem x
    else Havocked cap t (d.writeErr cap t bs) ∧ (d.writeErr cap t bs).wcp = true := by
  match bs, hpos with
  | [o], _ => rfl
  | [o, v], _ =>
    by_cases ho : o.toNat < cap
    · have hstore : d.writeErr cap t [o, v] = d.store o (Config.freeMemByte t o.toNat) := if_pos ho
      rw [hstore, if_neg (by simp), if_pos ⟨rfl, ho⟩]
      refine ⟨rfl, rfl, fun x => ?_⟩
      rw [read_store]
      by_cases hx : x = o.toNat
      · subst hx; rfl
      · exact (if_neg hx).trans (if_neg hx).symm
    · have hhavoc : d.writeErr cap t [o, v] = d.havocBusy cap t := if_neg ho
      rw [hhavoc, if_neg (by simp), if_neg fun h => ho h.2]
      exact ⟨havocked_havocBusy cap t d, rfl⟩
  | _ :: _ :: _ :: _, _ =>
    simpa [Device.writeErr] using ⟨havocked_havocBusy cap t d, rfl⟩

end Effects

/-- The premise of R282 holds of the device after a write, since the command keeps the parameters. -/
theorem writeCycleFits_afterWrite {s t : State} {d : Device} (hk : Kept s t) (hf : WriteCycleFits s.cfg d) (x : Nat)
    (bs : List Byte) (r : WriteOutcome) : WriteCycleFits t.cfg (d.afterWrite s.cfg.cap x bs r) := by
  obtain ⟨-, hcfg, -, -⟩ := hk
  rw [WriteCycleFits, hcfg, Device.afterWrite_cycle]
  exact hf

/-! ### Raw transactions with a device at rest -/

theorem writeOutcome_atRest_ok {x : TxDraw} {d : Device} (hw : d.wcp = false) (hx : x.ok = true) :
    writeOutcome x (some d) = .ok := by
  rw [writeOutcome_idle x hw, if_pos hx]

theorem writeOutcome_atRest_err {x : TxDraw} {d : Device} (hw : d.wcp = false) (hx : x.ok = false) :
    writeOutcome x (some d) = .err x.cause := by
  rw [writeOutcome_idle x hw, if_neg (by simp [hx])]

theorem readOutcome_atRest_ok {p : Params} {t n : Nat} {x : TxDraw} {d : Device} (hw : d.wcp = false)
    (hx : x.ok = true) : readOutcome p t n x (some d) = .ok (d.readBytes p t n) := by
  rw [readOutcome_idle p t n x hw, if_pos hx]

theorem readOutcome_atRest_err {p : Params} {t n : Nat} {x : TxDraw} {d : Device} (hw : d.wcp = false)
    (hx : x.ok = false) : readOutcome p t n x (some d) = .err x.cause := by
  rw [readOutcome_idle p t n x hw, if_neg (by simp [hx])]

/-- Settles O23: the one-byte shape of an Ok write sets PTR alone. -/
theorem i2cWriteSetsPointer : Obligations.I2cWriteSetsPointer := by
  intro s a o d ha hmax hd hw hok
  obtain ⟨t, hx, hdev, hp⟩ := i2cWrite_present (bs := [o]) ha hd (Nat.le_refl 1) hmax (writeOutcome_atRest_ok hw hok)
  rw [afterWrite_ok hw] at hdev
  exact ⟨t, hx, hdev, hp⟩

/-- Settles O24: the two-byte shape of an Ok write below CAP is a store. -/
theorem i2cWriteStoresByte : Obligations.I2cWriteStoresByte := by
  intro s a o v d ha hmax ho hd hw hf hok
  obtain ⟨t, hx, hdev, hp⟩ :=
    i2cWrite_present (bs := [o, v]) ha hd (Nat.le_succ 1) hmax (writeOutcome_atRest_ok hw hok)
  have hstore : d.afterWrite s.cfg.cap s.tx [o, v] .ok = d.store o v := (afterWrite_ok hw _).trans (if_pos ho)
  obtain ⟨hothers, hhist, hrep, hkept⟩ := hp
  have hfits := writeCycleFits_afterWrite hkept hf s.tx [o, v] .ok
  rw [hstore] at hdev hfits
  refine ⟨t, _, hx, hdev, ?_, fun x hne => ?_, rfl, rfl, hfits, hothers, hhist, hrep, hkept⟩
  · rw [read_store, if_pos rfl]
  · rw [read_store, if_neg hne]

/-- Settles O25: an Ok write of any other shape is havoc. -/
theorem i2cWriteOtherShapesHavoc : Obligations.I2cWriteOtherShapesHavoc := by
  intro s a bs d ha hmax hshape hd hw hf hok
  have hpos : 1 ≤ bs.length := by
    obtain ⟨o, v, rfl, -⟩ | h := hshape
    · exact Nat.le_succ 1
    · omega
  obtain ⟨t, hx, hdev, hp⟩ := i2cWrite_present ha hd hpos hmax (writeOutcome_atRest_ok hw hok)
  have hhavoc : d.afterWrite s.cfg.cap s.tx bs .ok = d.havocBusy s.cfg.cap s.tx :=
    (afterWrite_ok hw _).trans (writeOk_otherShape hshape)
  obtain ⟨hothers, hhist, hrep, hkept⟩ := hp
  have hfits := writeCycleFits_afterWrite hkept hf s.tx bs .ok
  rw [hhavoc] at hdev hfits
  exact ⟨t, _, hx, hdev, havocked_havocBusy .., rfl, hfits, hothers, hhist, hrep, hkept⟩

/-- Settles O26: the device after a failed write, by its shape. -/
theorem failedI2cWriteEffects : Obligations.FailedI2cWriteEffects := by
  intro s a bs d ha hpos hmax hd hw hf hfail
  obtain ⟨t, hx, hdev, hp⟩ := i2cWrite_present ha hd hpos hmax (writeOutcome_atRest_err hw hfail)
  obtain ⟨hothers, hhist, hrep, hkept⟩ := hp
  have hfits := writeCycleFits_afterWrite hkept hf s.tx bs (.err (s.draw 0).cause)
  rw [afterWrite_err hw] at hdev hfits
  exact ⟨t, _, hx, hdev, writeErr_shape s.cfg.cap s.tx d hpos, hfits, hothers, hhist, hrep, hkept⟩

/-- R59, R60: each byte of an Ok read from a device at rest. -/
theorem readBytes_getElem? (p : Params) (t : Nat) {n k : Nat} {d : Device} (hw : d.wcp = false) (hk : k < n) :
    (d.readBytes p t n)[k]? = some (d.readByte p t k) := by
  simp [Device.readBytes, hw, hk]

/-- Settles O27: an Ok read returns the bytes that R59 and R60 give the device. -/
theorem i2cReadReturnsBytesFromPointer : Obligations.I2cReadReturnsBytesFromPointer := by
  intro s a n d ha hpos hmax hd hw hok
  obtain ⟨t, hx, hdev, hp⟩ := i2cRead_present ha hd hpos hmax (readOutcome_atRest_ok hw hok)
  rw [afterRead_atRest hw] at hdev
  refine ⟨t, _, hx, readBytes_length s.cfg s.tx n.toNat d, fun k hk => ?_, hdev, hp⟩
  rw [readBytes_getElem? s.cfg s.tx hw hk, Device.readByte]
  cases d.ptr with
  | none => rfl
  | some o => cases s.cfg.readWrap <;> rfl

/-- Settles O28: a failing read, a failing pointer write, and a failing read behind an Ok pointer write. -/
theorem failedI2cReadReturnsNothing : Obligations.FailedI2cReadReturnsNothing := by
  intro s a n d ha hpos hmax hd hw
  refine ⟨fun hfail => ?_, fun off hcap => ⟨fun hfail => ?_, fun hok hfail => ?_⟩⟩
  · have h := i2cRead_present ha hd hpos hmax (readOutcome_atRest_err hw hfail)
    rwa [afterRead_atRest hw] at h
  · have h := eeRead_present_pointer_err ha hd hpos hmax hcap (writeOutcome_atRest_err hw hfail)
    rwa [afterWrite_err hw] at h
  · have hptr : d.afterWrite s.cfg.cap s.tx [off] .ok = { d with ptr := some off } := afterWrite_ok hw _
    have hw' : (d.afterWrite s.cfg.cap s.tx [off] .ok).wcp = false := by rw [hptr]; exact hw
    have h := eeRead_present_pointer_ok ha hd hpos hmax hcap (writeOutcome_atRest_ok hw hok)
      (readOutcome_atRest_err hw' hfail)
    rwa [afterRead_atRest hw', hptr] at h

/-! ### An absent device -/

/-- A command that ends with its one transaction, to an absent address, changes no device. -/
theorem absent_completeTx {s : State} {a : Addr7} {r : Result} {f : Device → Device} {e : Event} {st : Byte}
    (hd : s.device a = none) (hx : r = .next (respond st [] (completeTx a f e s))) :
    ∃ t, r = .next t ∧ t.dev = s.dev ∧ t.hist = s.hist ++ [e] ∧ Reported s t st [] ∧ Kept s t :=
  ⟨_, hx, completeTx_dev_absent f e hd, rfl, ⟨rfl, rfl, rfl⟩, rfl, rfl, rfl, rfl⟩

/-- Settles O29: the first transaction of each command fails, and the command ends there. -/
theorem absentDeviceFails : Obligations.AbsentDeviceFails := by
  intro s a ha hd
  have hw : writeOutcome (s.draw 0) (s.device (busAddr a)) = .err (s.draw 0).cause := by rw [hd, writeOutcome_absent]
  refine ⟨fun bs hpos hmax => ?_, fun n hpos hmax => ⟨?_, fun off hcap => ?_⟩, fun off v vs hcap => ?_⟩
  · have hx := exec_i2cWrite ha hpos hmax
    rw [i2cWrite_eq bs hw] at hx
    exact absent_completeTx hd hx
  · have hx := exec_i2cRead ha hpos hmax
    rw [i2cRead_eq (r := .err (s.draw 0).cause) (by rw [hd, readOutcome_absent]), finishRead_eq] at hx
    exact absent_completeTx hd hx
  · exact absent_completeTx hd (exec_eeRead_of_pointer_err ha hpos hmax hcap (i2cWrite_eq [off] hw))
  · exact absent_completeTx hd (exec_eeWrite_of_first_err ha hcap (i2cWrite_eq [off, v] hw))

/-! ### A device in its write cycle -/

/-- R62: the bytes of an Ok read under a write cycle. -/
def hazardBytes (t n : Nat) : List Byte := (List.range n).map (Config.freeReadByte t)

theorem hazardBytes_length (t n : Nat) : (hazardBytes t n).length = n := by simp [hazardBytes]

theorem hazardBytes_getElem? (t n k : Nat) (hk : k < n) :
    (hazardBytes t n)[k]? = some (Config.freeReadByte t k) := by
  simp [hazardBytes, hk]

theorem readOutcome_hazard (p : Params) (t n : Nat) (x : TxDraw) {d : Device} (hw : d.wcp = true) :
    readOutcome p t n x (some d) = if x.okInHazard then .ok (hazardBytes t n) else .err x.cause := by
  have hbytes : d.readBytes p t n = hazardBytes t n := by simp [Device.readBytes, hazardBytes, hw]
  rw [readOutcome_busy p t n x hw, hbytes]

/-- EE_WRITE after an Ok first transaction: a Delay, and EE_WRITE of the remaining bytes (R156). At OFF = 255 the next
offset wraps, but then no byte remains. -/
theorem exec_eeWrite_of_first_ok {s t : State} {a off v : Byte} {vs : List Byte} (ha : a.getLsbD 7 = false)
    (hcap256 : s.cfg.cap ≤ 256) (hcap : off.toNat + (v :: vs).length ≤ s.cfg.cap)
    (hw : i2cWrite (busAddr a) [off, v] s = (.ok, t)) (hcfg : t.cfg = s.cfg) :
    exec (.eeWrite a off (v :: vs)) s = exec (.eeWrite a (off + 1#8) vs) (waitWriteCycle t) := by
  have hlen : off.toNat + (vs.length + 1) ≤ s.cfg.cap := hcap
  have hnext : (off + 1#8).toNat = (off.toNat + 1) % 256 := BitVec.toNat_add off 1#8
  have hcap' : (off + 1#8).toNat + vs.length ≤ (waitWriteCycle t).cfg.cap := by
    rw [waitWriteCycle_cfg, hcfg]
    omega
  rw [exec_eeWrite ha hcap, exec_eeWrite ha hcap', eeWriteLoop, offsetByte_toNat, hw]
  cases vs with
  | nil => rfl
  | cons w ws =>
    rw [List.length_cons] at hlen
    rw [hnext, Nat.mod_eq_of_lt (by omega)]

/-- Settles O30: every transaction under the write cycle is havoc, and each draw decides how its command goes on. -/
theorem writeCycleHazardHavocs : Obligations.WriteCycleHazardHavocs := by
  intro s a d ha hd hw
  refine ⟨fun bs hpos hmax hf => ?_, fun n hpos hmax => ⟨?_, fun off hcap => ?_⟩, fun off v vs hcap256 hcap hf => ?_⟩
  · -- I2C_WRITE
    obtain ⟨t, hx, hdev, hothers, hhist, hrep, hkept⟩ := i2cWrite_present ha hd hpos hmax (writeOutcome_busy _ hw)
    have hfits := writeCycleFits_afterWrite hkept hf s.tx bs .ok
    rw [afterWrite_busy hw] at hdev hfits
    refine ⟨t, _, hx, hdev, havocked_havoc .., hw, hfits, hothers, hkept, ?_⟩
    cases hok : (s.draw 0).okInHazard <;> rw [hok] at hhist hrep <;> exact ⟨hrep, hhist⟩
  · -- I2C_READ
    obtain ⟨t, hx, hdev, hothers, hhist, hrep, hkept⟩ :=
      i2cRead_present ha hd hpos hmax (readOutcome_hazard _ _ _ _ hw)
    rw [afterRead_busy hw] at hdev
    refine ⟨t, _, _, hx, hdev, havocked_havoc .., hw, hothers, hkept, hazardBytes_length s.tx n.toNat,
      hazardBytes_getElem? s.tx n.toNat, ?_⟩
    cases hok : (s.draw 0).okInHazard <;> rw [hok] at hhist hrep <;> exact ⟨hrep, hhist⟩
  · -- EE_READ
    have hlen := hazardBytes_length (s.tx + 1) n.toNat
    have hbytes := hazardBytes_getElem? (s.tx + 1) n.toNat
    have hwrite := writeOutcome_busy (s.draw 0) hw
    cases hok : (s.draw 0).okInHazard <;> rw [hok] at hwrite
    · obtain ⟨t, hx, hdev, hothers, hhist, hrep, hkept⟩ := eeRead_present_pointer_err ha hd hpos hmax hcap hwrite
      rw [afterWrite_busy hw] at hdev
      exact ⟨t, _, _, hx, hdev, hw, hothers, hkept, hlen, hbytes, havocked_havoc .., hrep, hhist⟩
    · have hw' : (d.afterWrite s.cfg.cap s.tx [off] .ok).wcp = true := Device.afterWrite_wcp hw
      obtain ⟨t, hx, hdev, hothers, hhist, hrep, hkept⟩ :=
        eeRead_present_pointer_ok ha hd hpos hmax hcap hwrite (readOutcome_hazard _ _ _ _ hw')
      rw [afterRead_busy hw'] at hdev
      refine ⟨t, _, _, hx, hdev, hw', hothers, hkept, hlen, hbytes, havocked_havoc .., ?_⟩
      cases hok1 : (s.draw 1).okInHazard <;> rw [hok1] at hhist hrep <;> exact ⟨hrep, hhist⟩
  · -- EE_WRITE
    have hwrite := writeOutcome_busy (s.draw 0) hw
    cases hok : (s.draw 0).okInHazard <;> rw [hok] at hwrite
    · obtain ⟨t, hx, hdev, hothers, hhist, hrep, hkept⟩ := eeWrite_present_first_err (vs := vs) ha hd hcap hwrite
      have hfits := writeCycleFits_afterWrite hkept hf s.tx [off, v] .ok
      rw [afterWrite_busy hw] at hdev hfits
      exact ⟨_, _, hx, hdev, havocked_havoc .., hw, hfits, hothers, hkept, hhist, hrep⟩
    · have hx := exec_eeWrite_of_first_ok ha hcap256 hcap (i2cWrite_eq [off, v] (hd ▸ hwrite)) rfl
      refine ⟨_, (d.havoc s.cfg.cap s.tx).rest, hx, ?_, havocked_havoc _ _ d, rfl, hf, ?_, fun b hb => ?_, by simp,
        ⟨rfl, rfl, rfl, rfl⟩, rfl, rfl, rfl, by simp⟩
      · simp [hd, afterWrite_busy hw]
      · simpa [delayTime, isTx] using hf
      · rw [device_waitWriteCycle, device_completeTx_other _ _ _ hb]
        rfl

/-! ### What a command can issue -/

/-- The transactions of a command (R123, R124, R152, R156). -/
def issues : Instr → Tx → Prop
  | .i2cWrite a d, x => x = .write (busAddr a) d
  | .i2cRead a n, x => x = .read (busAddr a) n.toNat
  | .eeRead a off n, x => x = .write (busAddr a) [off] ∨ x = .read (busAddr a) n.toNat
  | .eeWrite a _ _, x => ∃ o v, x = .write (busAddr a) [o, v]
  | _, _ => False

theorem target_of_issues {i : Instr} {x : Tx} (h : issues i x) : target i = some x.address := by
  cases i with
  | i2cWrite a d => subst h; rfl
  | i2cRead a n => subst h; rfl
  | eeRead a off n => obtain rfl | rfl := h <;> rfl
  | eeWrite a off d => obtain ⟨o, v, rfl⟩ := h; rfl
  | crcInit | crcBit | crcByte | crcRead | crcMsg | waitWc => exact h.elim

/-- `t` is reached from `s` by Delays and transactions that `T` allows: `BusRun` with its transactions named. -/
inductive TxRun (T : Tx → Prop) (s : State) : State → Prop where
  | refl : TxRun T s s
  | tx {t : State} {x : Tx} (h : TxRun T s t) (hx : T x) : TxRun T s (x.perform t).2
  | wait {t : State} (h : TxRun T s t) : TxRun T s (waitWriteCycle t)

theorem TxRun.write {T : Tx → Prop} {s t t' : State} {a : Addr7} {bs : List Byte} {r : WriteOutcome}
    (h : TxRun T s t) (hx : T (.write a bs)) (ht : i2cWrite a bs t = (r, t')) : TxRun T s t' := by
  have hsnd : ((Tx.write a bs).perform t).2 = t' := congrArg Prod.snd ht
  exact hsnd ▸ h.tx hx

theorem TxRun.eeWriteLoop {T : Tx → Prop} {s t : State} {a : Addr7} (h : TxRun T s t)
    (hT : ∀ o v, T (.write a [o, v])) (d : List Byte) (o : Nat) : TxRun T s (eeWriteLoop a o d t).2 := by
  induction d generalizing o t with
  | nil => exact h
  | cons v vs ih =>
    unfold Machine.eeWriteLoop
    split
    · exact ih (h.write (hT _ _) ‹_›).wait (o + 1)
    · exact h.write (hT _ _) ‹_›

/-- A command's end, after transactions that `T` allows. -/
def EndsTxRun (T : Tx → Prop) (s : State) (r : Result) : Prop :=
  ∃ st data t c, TxRun T s t ∧ r = .next (respond st data (t.withCrc c))

theorem TxRun.finish {T : Tx → Prop} {s t : State} (h : TxRun T s t) (data : List Byte) :
    EndsTxRun T s (finish data t) := ⟨_, _, t, t.crc, h, rfl⟩

theorem TxRun.raise {T : Tx → Prop} {s t : State} (h : TxRun T s t) (e : Error) : EndsTxRun T s (raise e t) :=
  ⟨_, _, t, t.crc, h, rfl⟩

theorem TxRun.finishWrite {T : Tx → Prop} {s : State} {r : WriteOutcome × State} (h : TxRun T s r.2) :
    EndsTxRun T s (finishWrite r) := ⟨_, _, _, _, h, rfl⟩

theorem TxRun.finishRead {T : Tx → Prop} {s t : State} {a : Addr7} {n : Nat} (h : TxRun T s t) (hx : T (.read a n)) :
    EndsTxRun T s (finishRead (i2cRead a n t)) :=
  ⟨_, _, _, _, h.tx hx, finishRead_eq _⟩

/-- Every command is Delays and transactions of its own, and a response. -/
theorem exec_txRun (i : Instr) (s : State) : EndsTxRun (issues i) s (exec i s) := by
  have h0 : TxRun (issues i) s s := .refl
  cases i with
  | crcInit => exact ⟨_, _, s, _, h0, rfl⟩
  | crcBit d8 =>
    show EndsTxRun _ s (execCrcBit d8 s)
    unfold execCrcBit
    split
    · exact h0.raise _
    · exact ⟨_, _, s, _, h0, rfl⟩
  | crcByte d8 => exact ⟨_, _, s, _, h0, rfl⟩
  | crcRead => exact h0.finish _
  | crcMsg d => exact ⟨_, _, s, _, h0, rfl⟩
  | waitWc => exact h0.wait.finish _
  | i2cWrite a d =>
    show EndsTxRun _ s (execI2cWrite a d s)
    rw [execI2cWrite_eq]
    split
    · exact h0.raise _
    · split
      · exact h0.raise _
      · exact TxRun.finishWrite (h0.tx rfl)
  | i2cRead a n =>
    show EndsTxRun _ s (execI2cRead a n s)
    unfold execI2cRead
    split
    · exact h0.raise _
    · split
      · exact h0.raise _
      · exact h0.finishRead rfl
  | eeRead a off n =>
    show EndsTxRun _ s (execEeRead a off n s)
    unfold execEeRead
    split
    · exact h0.raise _
    · split
      · exact h0.raise _
      · split
        · exact h0.raise _
        · split
          · exact (h0.write (.inl rfl) ‹_›).finishRead (.inr rfl)
          · exact (h0.write (.inl rfl) ‹_›).raise _
  | eeWrite a off d =>
    show EndsTxRun _ s (execEeWrite a off d s)
    rw [execEeWrite_eq]
    split
    · exact h0.raise _
    · split
      · exact h0.raise _
      · exact (h0.eeWriteLoop (fun o v => ⟨o, v, rfl⟩) d off.toNat).finishWrite

/-! ### What a run leaves of a device it does not address -/

/-- R78, R122: a transaction changes the device at its own address and logs its own event, no Delay. -/
theorem perform_snd (x : Tx) (s : State) :
    ∃ f e, (x.perform s).2 = completeTx x.address f e s ∧ e ≠ .delay := by
  cases x with
  | write a bs => exact ⟨_, _, i2cWrite_snd a bs s, nofun⟩
  | read a n => exact ⟨_, _, i2cRead_snd a n s, nofun⟩

/-- R78: the device at `b` is as before, or at rest if a Delay was logged. -/
def Untouched (b : Addr7) (s t : State) : Prop :=
  ∃ es, t.hist = s.hist ++ es ∧
    t.device b = if Event.delay ∈ es then (s.device b).map Device.rest else s.device b

theorem TxRun.untouched {T : Tx → Prop} {b : Addr7} {s t : State} (hT : ∀ x, T x → x.address ≠ b)
    (h : TxRun T s t) : Untouched b s t := by
  induction h with
  | refl => exact ⟨[], by simp, by simp⟩
  | @tx u x _ hx ih =>
    obtain ⟨es, hhist, hdev⟩ := ih
    obtain ⟨f, e, hu, he⟩ := perform_snd x u
    refine ⟨es ++ [e], by simp [hu, hhist], ?_⟩
    rw [hu, device_completeTx_other f e u (hT x hx).symm, hdev]
    simp [he.symm]
  | wait _ ih =>
    obtain ⟨es, hhist, hdev⟩ := ih
    refine ⟨es ++ [.delay], by simp [hhist], ?_⟩
    rw [device_waitWriteCycle, hdev, if_pos (List.mem_append_right es List.mem_cons_self)]
    by_cases he : Event.delay ∈ es
    · rw [if_pos he, Option.map_map]; rfl
    · rw [if_neg he]

/-! ### What a run reads -/

/-- States that differ at most in the devices at the addresses outside `A`. -/
structure Alike (A : Addr7 → Prop) (s s' : State) : Prop where
  fields : s' = { s with dev := s'.dev }
  device : ∀ a, A a → s'.device a = s.device a

/-- Next states that are alike. -/
def AlikeNext (A : Addr7 → Prop) (r r' : Result) : Prop :=
  ∃ t t', r = .next t ∧ r' = .next t' ∧ Alike A t t'

/-- The same outcome, and states that are alike. -/
def AlikeOut {ρ : Type} (A : Addr7 → Prop) (x x' : ρ × State) : Prop :=
  ∃ r t t', x = (r, t) ∧ x' = (r, t') ∧ Alike A t t'

section
variable {A : Addr7 → Prop} {s s' : State} (h : Alike A s s')
include h

theorem Alike.cfg : s'.cfg = s.cfg := by rw [h.fields]

theorem Alike.crc : s'.crc = s.crc := by rw [h.fields]

theorem Alike.tx : s'.tx = s.tx := by rw [h.fields]

theorem Alike.draw (k : Nat) : s'.draw k = s.draw k := by rw [h.fields]; rfl

theorem Alike.withCrc (c : Crc) : Alike A (s.withCrc c) (s'.withCrc c) where
  fields := by rw [h.fields]; rfl
  device := h.device

theorem Alike.respond (st : Byte) (data : List Byte) : Alike A (respond st data s) (respond st data s') where
  fields := by rw [h.fields]; rfl
  device := h.device

theorem Alike.completeTx (a : Addr7) (f : Device → Device) (e : Event) (ha : A a) :
    Alike A (completeTx a f e s) (completeTx a f e s') where
  fields := by rw [h.fields]; rfl
  device b hb := by rw [device_completeTx, device_completeTx, h.device a ha, h.device b hb]

theorem Alike.wait : Alike A (waitWriteCycle s) (waitWriteCycle s') where
  fields := by rw [h.fields]; rfl
  device b hb := by rw [device_waitWriteCycle, device_waitWriteCycle, h.device b hb]

theorem Alike.finish (data : List Byte) : AlikeNext A (finish data s) (finish data s') :=
  ⟨_, _, rfl, rfl, h.respond statusOk data⟩

theorem Alike.raise (e : Error) : AlikeNext A (raise e s) (raise e s') :=
  ⟨_, _, rfl, rfl, h.respond e.status []⟩

theorem Alike.i2cWrite {a : Addr7} (ha : A a) (bs : List Byte) : AlikeOut A (i2cWrite a bs s) (i2cWrite a bs s') := by
  refine ⟨_, _, _, rfl, i2cWrite_eq bs (by rw [h.draw, h.device a ha]), ?_⟩
  rw [h.cfg, h.tx]
  exact h.completeTx a _ _ ha

theorem Alike.i2cRead {a : Addr7} (ha : A a) (n : Nat) : AlikeOut A (i2cRead a n s) (i2cRead a n s') := by
  refine ⟨_, _, _, rfl, i2cRead_eq (by rw [h.cfg, h.tx, h.draw, h.device a ha]), ?_⟩
  rw [h.cfg, h.tx]
  exact h.completeTx a _ _ ha

theorem Alike.eeWriteLoop {a : Addr7} (ha : A a) (d : List Byte) (o : Nat) :
    AlikeOut A (eeWriteLoop a o d s) (eeWriteLoop a o d s') := by
  induction d generalizing o s s' with
  | nil => exact ⟨_, _, _, rfl, rfl, h⟩
  | cons v vs ih =>
    obtain ⟨r, t, t', ht, ht', halike⟩ := h.i2cWrite ha [offsetByte o, v]
    rw [Machine.eeWriteLoop, Machine.eeWriteLoop, ht, ht']
    cases r with
    | ok => exact ih halike.wait (o + 1)
    | err c => exact ⟨_, _, _, rfl, rfl, halike⟩

end

theorem AlikeOut.finishWrite {A : Addr7 → Prop} {x x' : WriteOutcome × State} (h : AlikeOut A x x') :
    AlikeNext A (finishWrite x) (finishWrite x') := by
  obtain ⟨r, t, t', rfl, rfl, ht⟩ := h
  exact ⟨_, _, rfl, rfl, ht.respond _ _⟩

theorem AlikeOut.finishRead {A : Addr7 → Prop} {x x' : ReadOutcome × State} (h : AlikeOut A x x') :
    AlikeNext A (finishRead x) (finishRead x') := by
  obtain ⟨r, t, t', rfl, rfl, ht⟩ := h
  exact ⟨_, _, finishRead_eq _, finishRead_eq _, ht.respond _ _⟩

/-- R78: a command reads no device but the one it addresses. -/
theorem Alike.exec {A : Addr7 → Prop} {s s' : State} (h : Alike A s s') (i : Instr)
    (hA : ∀ a, target i = some a → A a) : AlikeNext A (exec i s) (exec i s') := by
  cases i with
  | crcInit =>
    show AlikeNext A (execCrcInit s) (execCrcInit s')
    unfold execCrcInit
    rw [h.cfg]
    exact (h.withCrc _).finish _
  | crcBit d8 =>
    show AlikeNext A (execCrcBit d8 s) (execCrcBit d8 s')
    unfold execCrcBit
    rw [h.cfg, h.crc]
    split
    · exact h.raise _
    · exact (h.withCrc _).finish _
  | crcByte d8 =>
    show AlikeNext A (execCrcByte d8 s) (execCrcByte d8 s')
    unfold execCrcByte
    rw [h.cfg, h.crc]
    exact (h.withCrc _).finish _
  | crcRead =>
    show AlikeNext A (execCrcRead s) (execCrcRead s')
    unfold execCrcRead
    rw [h.crc]
    exact h.finish _
  | crcMsg d =>
    show AlikeNext A (execCrcMsg d s) (execCrcMsg d s')
    unfold execCrcMsg
    rw [h.cfg]
    exact (h.withCrc _).finish _
  | waitWc => exact h.wait.finish _
  | i2cWrite a d =>
    show AlikeNext A (execI2cWrite a d s) (execI2cWrite a d s')
    rw [execI2cWrite_eq, execI2cWrite_eq, h.cfg]
    split
    · exact h.raise _
    · split
      · exact h.raise _
      · exact (h.i2cWrite (hA _ rfl) d).finishWrite
  | i2cRead a n =>
    show AlikeNext A (execI2cRead a n s) (execI2cRead a n s')
    unfold execI2cRead
    rw [h.cfg]
    split
    · exact h.raise _
    · split
      · exact h.raise _
      · exact (h.i2cRead (hA _ rfl) _).finishRead
  | eeRead a off n =>
    obtain ⟨r, t, t', ht, ht', halike⟩ := h.i2cWrite (hA _ rfl) [off]
    show AlikeNext A (execEeRead a off n s) (execEeRead a off n s')
    unfold execEeRead
    rw [h.cfg, ht, ht']
    split
    · exact h.raise _
    · split
      · exact h.raise _
      · split
        · exact h.raise _
        · cases r with
          | ok => exact (halike.i2cRead (hA _ rfl) _).finishRead
          | err c => exact halike.raise _
  | eeWrite a off d =>
    show AlikeNext A (execEeWrite a off d s) (execEeWrite a off d s')
    rw [execEeWrite_eq, execEeWrite_eq, h.cfg]
    split
    · exact h.raise _
    · split
      · exact h.raise _
      · exact (h.eeWriteLoop (hA _ rfl) d off.toNat).finishWrite

/-- Settles O15: a run leaves the devices it does not address, and does not see them. -/
theorem transactionsUseOneDevice : Obligations.TransactionsUseOneDevice := by
  intro i s
  obtain ⟨st, data, t, c, hrun, hx⟩ := exec_txRun i s
  refine ⟨_, hx, fun b hb => ?_, fun s' hs' hdev => ?_⟩
  · obtain ⟨es, hhist, hb'⟩ : Untouched b s t := hrun.untouched fun x hx hxb => hb (hxb ▸ target_of_issues hx)
    rw [respond_hist, withCrc_hist, hhist, List.drop_left, device_respond, device_withCrc, hb']
    exact ⟨fun h => if_neg h, fun h => if_pos h⟩
  · obtain ⟨u, u', hu, hu', halike⟩ := Alike.exec ⟨hs', hdev⟩ i fun _ ha => ha
    cases hx.symm.trans hu
    exact ⟨u', hu', halike.fields, halike.device⟩

/-! ### What every transaction to a device keeps of it -/

/-- The device at `b` is present, and `P` holds of it. -/
def DeviceIs (P : Device → Prop) (b : Addr7) (s : State) : Prop := ∃ d, s.device b = some d ∧ P d

theorem DeviceIs.completeTx {P : Device → Prop} {a b : Addr7} {f : Device → Device} {s : State} (e : Event)
    (h : DeviceIs P b s) (hf : b = a → ∀ d, P d → P (f d)) : DeviceIs P b (completeTx a f e s) := by
  obtain ⟨d, hd, hP⟩ := h
  by_cases hb : b = a
  · subst hb
    exact ⟨f d, by rw [device_completeTx_self, hd]; rfl, hf rfl d hP⟩
  · exact ⟨d, by rw [device_completeTx_other f e s hb, hd], hP⟩

/-- R62: no transaction ends a write cycle. -/
theorem DeviceIs.perform_busy {b : Addr7} {s : State} (h : DeviceIs (·.wcp = true) b s) (x : Tx) :
    DeviceIs (·.wcp = true) b (x.perform s).2 := by
  cases x with
  | write a bs => exact h.completeTx _ fun _ _ => Device.afterWrite_wcp
  | read a n => exact h.completeTx _ fun _ d hd => (Device.afterRead_wcp _ _ d).trans hd

/-- R63: a device in its write cycle stays in it while no Delay is logged. -/
theorem DeviceIs.txRun_busy {b : Addr7} {T : Tx → Prop} {s t : State} (hs : DeviceIs (·.wcp = true) b s)
    (h : TxRun T s t) : ∃ es, t.hist = s.hist ++ es ∧ (Event.delay ∉ es → DeviceIs (·.wcp = true) b t) := by
  induction h with
  | refl => exact ⟨[], by simp, fun _ => hs⟩
  | @tx u x _ _ ih =>
    obtain ⟨es, hhist, hbusy⟩ := ih
    obtain ⟨f, e, hu, -⟩ := perform_snd x u
    refine ⟨es ++ [e], by simp [hu, hhist], fun hno => ?_⟩
    have hes : Event.delay ∉ es := fun he => hno (List.mem_append_left [e] he)
    exact (hbusy hes).perform_busy x
  | wait _ ih =>
    obtain ⟨es, hhist, -⟩ := ih
    exact ⟨es ++ [.delay], by simp [hhist], fun hno => absurd (List.mem_append_right es List.mem_cons_self) hno⟩

/-- Settles O16: only a Delay clears WCP along the command's run. -/
theorem onlyDelayEndsWriteCycle : Obligations.OnlyDelayEndsWriteCycle := by
  intro i s
  obtain ⟨st, data, t, c, hrun, hx⟩ := exec_txRun i s
  refine ⟨_, hx, fun b d hd hw hno => ?_⟩
  obtain ⟨es, hhist, hbusy⟩ := DeviceIs.txRun_busy ⟨d, hd, hw⟩ hrun
  rw [respond_hist, withCrc_hist, hhist, List.drop_left] at hno
  exact hbusy hno

/-! ### Commands that write nothing to a device -/

/-- The transaction writes no byte of the memory at `b`: a write to it carries an offset only (R55). -/
def keepsMemory (b : Addr7) : Tx → Prop
  | .write a bs => b = a → ∃ o, bs = [o]
  | .read _ _ => True

theorem keepsMemory_of_issues {b : Addr7} {i : Instr} {x : Tx} (hi : writesNothingTo b i) (hx : issues i x) :
    keepsMemory b x := by
  cases i with
  | i2cWrite a d => subst hx; exact fun hb => absurd hb.symm hi
  | i2cRead a n => subst hx; trivial
  | eeRead a off n =>
    obtain rfl | rfl := hx
    · exact fun _ => ⟨off, rfl⟩
    · trivial
  | eeWrite a off d => obtain ⟨o, v, rfl⟩ := hx; exact fun hb => absurd hb.symm hi
  | crcInit | crcBit | crcByte | crcRead | crcMsg | waitWc => exact hx.elim

/-- The device is at rest and holds `m`. -/
def RestsWith (m : Memory) (d : Device) : Prop := d.mem = m ∧ d.wcp = false

theorem RestsWith.afterRead {m : Memory} {d : Device} (cap t : Nat) (h : RestsWith m d) :
    RestsWith m (d.afterRead cap t) := by
  rw [afterRead_atRest h.2]
  exact h

/-- R55, R61: a one-byte write, Ok or not, changes PTR alone. -/
theorem RestsWith.afterPointerWrite {m : Memory} {d : Device} (cap t : Nat) (o : Off8) (r : WriteOutcome)
    (h : RestsWith m d) : RestsWith m (d.afterWrite cap t [o] r) := by
  cases r with
  | ok => rw [afterWrite_ok h.2]; exact h
  | err c => rw [afterWrite_err h.2]; exact h

theorem DeviceIs.perform {b : Addr7} {m : Memory} {s : State} {x : Tx} (h : DeviceIs (RestsWith m) b s)
    (hx : keepsMemory b x) : DeviceIs (RestsWith m) b (x.perform s).2 := by
  cases x with
  | write a bs =>
    refine h.completeTx _ fun hb d hd => ?_
    obtain ⟨o, rfl⟩ := hx hb
    exact hd.afterPointerWrite ..
  | read a n => exact h.completeTx _ fun _ d hd => hd.afterRead ..

theorem DeviceIs.wait {b : Addr7} {m : Memory} {s : State} (h : DeviceIs (RestsWith m) b s) :
    DeviceIs (RestsWith m) b (waitWriteCycle s) := by
  obtain ⟨d, hd, hm, -⟩ := h
  exact ⟨d.rest, by rw [device_waitWriteCycle, hd]; rfl, hm, rfl⟩

theorem DeviceIs.txRun {b : Addr7} {m : Memory} {T : Tx → Prop} {s t : State} (h : DeviceIs (RestsWith m) b s)
    (hT : ∀ x, T x → keepsMemory b x) (hrun : TxRun T s t) : DeviceIs (RestsWith m) b t := by
  induction hrun with
  | refl => exact h
  | tx _ hx ih => exact ih.perform (hT _ hx)
  | wait _ ih => exact ih.wait

theorem DeviceIs.exec {b : Addr7} {m : Memory} {i : Instr} {s : State} (h : DeviceIs (RestsWith m) b s)
    (hi : writesNothingTo b i) : ∃ t, exec i s = .next t ∧ DeviceIs (RestsWith m) b t := by
  obtain ⟨st, data, t, c, hrun, hx⟩ := exec_txRun i s
  have ht : DeviceIs (RestsWith m) b t := h.txRun (fun _ => keepsMemory_of_issues hi) hrun
  exact ⟨_, hx, ht⟩

/-- R68: along commands that write nothing to it, a device at rest keeps its memory. -/
theorem DeviceIs.runInstrs {b : Addr7} {m : Memory} {is : List Instr} {s : State} (h : DeviceIs (RestsWith m) b s)
    (his : ∀ i ∈ is, writesNothingTo b i) : ∃ t, runInstrs is s = some t ∧ DeviceIs (RestsWith m) b t := by
  induction is generalizing s with
  | nil => exact ⟨s, rfl, h⟩
  | cons i is ih =>
    obtain ⟨t, hx, ht⟩ := h.exec (his i List.mem_cons_self)
    obtain ⟨u, hu, hdev⟩ := ih ht fun j hj => his j (List.mem_cons_of_mem i hj)
    exact ⟨u, by rw [Safety.runInstrs, hx]; exact hu, hdev⟩

/-! ### EE_READ of a device at rest -/

/-- The bytes of a memory from `off` on. -/
def memoryBytes (m : Memory) (off n : Nat) : List Byte := (List.range n).map fun k => Memory.read m (off + k)

theorem memoryBytes_length (m : Memory) (off n : Nat) : (memoryBytes m off n).length = n := by simp [memoryBytes]

/-- R59: a read that starts at a known PTR and stays below CAP. -/
theorem readBytes_pointer {p : Params} {t n : Nat} {off : Off8} {d : Device} (hw : d.wcp = false)
    (hptr : d.ptr = some off) (hcap : off.toNat + n ≤ p.cap) :
    d.readBytes p t n = memoryBytes d.mem off.toNat n := by
  refine List.map_congr_left fun k hk => ?_
  have hlt : off.toNat + k < p.cap := by
    have := List.mem_range.mp hk
    omega
  simp [Device.readByte, hw, hptr, hlt]

theorem ioStatus_ne_ok (c : Cause) : ioStatus c ≠ 0x00#8 := status_io c ▸ status_error_ne_ok (.io c)

/-- R153: an EE_READ of a device at rest that ends OK answers the memory's bytes. -/
theorem eeRead_ok_bytes {s t : State} {a off : Byte} {n : Count} {d : Device} (hd : s.device (busAddr a) = some d)
    (hw : d.wcp = false) (hx : exec (.eeRead a off n) s = .next t) (hst : t.status = 0x00#8) :
    t.rsps = s.rsps ++ [⟨0x00#8, memoryBytes d.mem off.toNat n.toNat⟩] := by
  obtain ⟨ha, hpos, hmax, hcap⟩ | ⟨e, he⟩ := exec_eeRead_checks a off n s
  · cases hok : (s.draw 0).ok with
    | false =>
      obtain ⟨u, hu, -, -, -, hrep, -⟩ :=
        eeRead_present_pointer_err ha hd hpos hmax hcap (writeOutcome_atRest_err hw hok)
      cases hx.symm.trans hu
      obtain ⟨hstatus, -, -⟩ := hrep
      exact absurd (hstatus.symm.trans hst) (ioStatus_ne_ok _)
    | true =>
      have hread : readOutcome s.cfg (s.tx + 1) n.toNat (s.draw 1) (some (d.afterWrite s.cfg.cap s.tx [off] .ok)) =
          if (s.draw 1).ok then .ok (memoryBytes d.mem off.toNat n.toNat) else .err (s.draw 1).cause := by
        rw [afterWrite_ok hw, readOutcome_idle _ _ _ _ (by exact hw), readBytes_pointer (by exact hw) rfl hcap]
        rfl
      obtain ⟨u, hu, -, -, -, hrep, -⟩ :=
        eeRead_present_pointer_ok ha hd hpos hmax hcap (writeOutcome_atRest_ok hw hok) hread
      cases hx.symm.trans hu
      obtain ⟨hstatus, hrsps, -⟩ := hrep
      cases hok1 : (s.draw 1).ok <;> rw [hok1] at hstatus hrsps
      · exact absurd (hstatus.symm.trans hst) (ioStatus_ne_ok _)
      · exact hrsps
  · cases hx.symm.trans he
    exact absurd hst (status_error_ne_ok e)

/-- Settles O34: the device is at rest with the same memory before both reads. -/
theorem eeReadIsRepeatable : Obligations.EeReadIsRepeatable := by
  intro s a off n d is hd hw his
  have hs : DeviceIs (RestsWith d.mem) (busAddr a) s := ⟨d, hd, rfl, hw⟩
  obtain ⟨t, ht, hdt⟩ := hs.exec (i := .eeRead a off n) trivial
  obtain ⟨u, hu, hdu⟩ := hdt.runInstrs his
  obtain ⟨v, hv, -⟩ := hdu.exec (i := .eeRead a off n) trivial
  obtain ⟨d', hd', hm, hw'⟩ := hdu
  refine ⟨t, u, v, ht, hu, hv, fun htst hvst => ⟨memoryBytes d.mem off.toNat n.toNat, memoryBytes_length .., ?_, ?_⟩⟩
  · exact eeRead_ok_bytes hd hw ht htst
  · rw [← hm]
    exact eeRead_ok_bytes hd' hw' hv hvst

end Sys2Proof.Proofs

/-! ## Frames: the encoder, the decoder and the assembler

All that the decoder can find is said once (`decode_cases`): part of a frame, an unassigned opcode, or the frame of a
command that a frame can carry. With `decode_encode`, the other direction, the statements about frames follow. -/

namespace Sys2Proof.Proofs

open Sys2Proof.Machine Sys2Proof.Safety Sys2Proof.Laws

/-- Settles O42: `decode_encode`, which goes over the commands. -/
theorem decodeOfEncode : Obligations.DecodeOfEncode := fun _ rest hi => decode_encode rest hi

/-! ### What the decoder can find -/

/-- What was found in `bs` is part of a frame, or the frame of a command and the bytes after it. -/
def PartOrFrame (bs : List Byte) (r : Decoded) : Prop :=
  r = .incomplete ∨ ∃ i rest, r = .instr i rest ∧ i.wellFormed = true ∧ bs = encode i ++ rest

/-- A count and a payload after the bytes `head`, for a command whose frame is `head`, its payload's length and its
payload (R91, R96). -/
theorem withPayload_partOrFrame {mk : List Byte → Instr} (head : List Byte)
    (hframe : ∀ d, encode (mk d) = head ++ (lengthBytes d ++ d)) (hfits : ∀ d, (mk d).wellFormed = payloadFits d)
    (nh nl : Byte) (bs : List Byte) :
    PartOrFrame (head ++ nh :: nl :: bs) (withPayload (countOf nh nl) bs mk) := by
  by_cases hn : (countOf nh nl).toNat ≤ bs.length
  · obtain ⟨i, rest, hi⟩ : ∃ i rest, withPayload (countOf nh nl) bs mk = .instr i rest := ⟨_, _, if_pos hn⟩
    obtain ⟨d, rfl, hbs, hlen⟩ := withPayload_instr hi
    have hlt : (countOf nh nl).toNat < 65536 := (countOf nh nl).isLt
    have hbytes : lengthBytes d = [nh, nl] := by
      rw [lengthBytes, hlen, BitVec.ofNat_toNat, BitVec.setWidth_eq, countBytes_countOf]
    refine .inr ⟨mk d, rest, hi, ?_, ?_⟩
    · rw [hfits, payloadFits, hlen]
      exact decide_eq_true (by omega)
    · simp [hframe, hbytes, hbs]
  · exact .inl (if_neg hn)

theorem decodeFields_partOrFrame (o : Opcode) (bs : List Byte) : PartOrFrame (o.byte :: bs) (decodeFields o bs) := by
  cases o with
  | crcInit | crcRead | waitWc => exact .inr ⟨_, bs, rfl, rfl, rfl⟩
  | crcBit | crcByte =>
    match bs with
    | [] => exact .inl rfl
    | d8 :: rest => exact .inr ⟨_, rest, rfl, rfl, rfl⟩
  | crcMsg =>
    match bs with
    | [] | [_] => exact .inl rfl
    | nh :: nl :: rest => exact withPayload_partOrFrame [0x05#8] (fun _ => rfl) (fun _ => rfl) nh nl rest
  | i2cWrite =>
    match bs with
    | [] | [_] | [_, _] => exact .inl rfl
    | a :: nh :: nl :: rest => exact withPayload_partOrFrame [0x10#8, a] (fun _ => rfl) (fun _ => rfl) nh nl rest
  | eeWrite =>
    match bs with
    | [] | [_] | [_, _] | [_, _, _] => exact .inl rfl
    | a :: off :: nh :: nl :: rest =>
      exact withPayload_partOrFrame [0x21#8, a, off] (fun _ => rfl) (fun _ => rfl) nh nl rest
  | i2cRead =>
    match bs with
    | [] | [_] | [_, _] => exact .inl rfl
    | a :: nh :: nl :: rest =>
      refine .inr ⟨.i2cRead a (countOf nh nl), rest, rfl, rfl, ?_⟩
      rw [encode, countBytes_countOf]
      rfl
  | eeRead =>
    match bs with
    | [] | [_] | [_, _] | [_, _, _] => exact .inl rfl
    | a :: off :: nh :: nl :: rest =>
      refine .inr ⟨.eeRead a off (countOf nh nl), rest, rfl, rfl, ?_⟩
      rw [encode, countBytes_countOf]
      rfl

/-- R103: an unassigned opcode is a frame of its own. -/
theorem decode_unassigned {op : Byte} (rest : List Byte) (hop : Opcode.ofByte op = none) :
    decode (op :: rest) = .badOp op rest := by
  rw [decode, hop]

/-- All that the decoder can find at the head of a stream. -/
theorem decode_cases (bs : List Byte) :
    (∃ op rest, bs = op :: rest ∧ Opcode.ofByte op = none) ∨ PartOrFrame bs (decode bs) := by
  match bs with
  | [] => exact .inr (.inl rfl)
  | op :: bs =>
    cases hop : Opcode.ofByte op with
    | none => exact .inl ⟨op, bs, rfl, hop⟩
    | some o =>
      refine .inr ?_
      rw [decode, hop, ← Opcode.byte_of_ofByte hop]
      exact decodeFields_partOrFrame o bs

/-- Settles O43: only the frame of a command decodes to a command. -/
theorem decodedFrameIsItsEncoding : Obligations.DecodedFrameIsItsEncoding := by
  intro bs rest i h
  obtain ⟨op, rest', rfl, hop⟩ | hnone | ⟨j, rest', hj, hwf, hbs⟩ := decode_cases bs
  · cases (decode_unassigned rest' hop).symm.trans h
  · cases hnone.symm.trans h
  · cases hj.symm.trans h
    exact ⟨hwf, hbs⟩

/-! ### An incomplete frame -/

/-- R105: a part of a frame decodes to no frame, since what it decoded to would stand at the head of the whole frame. -/
theorem decode_part {i : Instr} {p q : List Byte} (hi : i.wellFormed = true) (hframe : encode i = p ++ q)
    (hq : q ≠ []) : decode p = .incomplete := by
  have hwhole : decode (p ++ q) = .instr i [] := by
    rw [← hframe, ← List.append_nil (encode i), decode_encode [] hi]
  obtain ⟨op, rest, rfl, hop⟩ | hpart | ⟨j, rest, -, hj, rfl⟩ := decode_cases p
  · cases (decode_unassigned (rest ++ q) hop).symm.trans hwhole
  · exact hpart
  · rw [List.append_assoc, decode_encode _ hj] at hwhole
    injection hwhole with _ hrest
    exact absurd (List.append_eq_nil_iff.mp hrest).2 hq

/-- Settles O21: the part of a frame at the end of the stream decodes to no frame. -/
theorem incompleteFrameIsStuck : Obligations.IncompleteFrameIsStuck := by
  intro s i p q hi hframe hp hq hs
  have hne : s.stream ≠ [] := hs ▸ hp
  have hdecode : decode s.stream = .incomplete := hs ▸ decode_part hi hframe hq
  rw [step, fetch, if_neg hne, hdecode]

/-! ### Unassigned opcodes -/

/-- R98, R99: a byte that is no command's opcode is unassigned. -/
theorem ofByte_unassigned {op : Byte} (hop : op ∉ Opcode.all.map Opcode.byte) : Opcode.ofByte op = none := by
  refine List.find?_eq_none.mpr fun o ho => ?_
  simpa using fun h : o.byte = op => hop (h ▸ List.mem_map_of_mem ho)

/-- Settles O20: the opcode byte alone is taken from the stream, and the error is all that happens. -/
theorem unassignedOpcodeRaisesIllegal : Obligations.UnassignedOpcodeRaisesIllegal := by
  intro s op rest hop hs
  have hdecode : decode (op :: rest) = .badOp op rest := decode_unassigned rest (ofByte_unassigned hop)
  rw [step, fetch, hs, if_neg (List.cons_ne_nil op rest), hdecode]
  rfl

/-! ### The length of a frame -/

/-- R100: the bytes before the payload, the two of the count among them, and the payload. -/
theorem length_payloadFrame (head d : List Byte) :
    (head ++ (lengthBytes d ++ d)).length = head.length + 2 + d.length := by
  simp [lengthBytes, countBytes]
  omega

/-- R100: the count field of a payload's frame gives the frame's length. -/
theorem length_of_countField (head : List Byte) {d : List Byte} (hd : payloadFits d = true) :
    head.length + 2 +
        (countOf ((BitVec.ofNat 16 d.length).extractLsb' 8 8) ((BitVec.ofNat 16 d.length).extractLsb' 0 8)).toNat =
      (head ++ (lengthBytes d ++ d)).length := by
  rw [length_payloadFrame, countOf_countBytes, length_of_fits (of_decide_eq_true hd)]

/-- R100: the length that the opcode and the count field give is that of the whole frame. -/
theorem frameLength_encode {i : Instr} (rest : List Byte) (hi : i.wellFormed = true) :
    frameLength (encode i ++ rest) = some (encode i).length := by
  cases i with
  | crcInit | crcBit | crcByte | crcRead | i2cRead | eeRead | waitWc => rfl
  | crcMsg d => exact congrArg some (length_of_countField [0x05#8] hi)
  | i2cWrite a d => exact congrArg some (length_of_countField [0x10#8, a] hi)
  | eeWrite a off d => exact congrArg some (length_of_countField [0x21#8, a, off] hi)

/-- Settles O44: an unassigned opcode has no fields, and every other frame has its format's length. -/
theorem frameLengthIsFormatLength : Obligations.FrameLengthIsFormatLength := by
  refine ⟨fun op rest hop => ?_, fun i rest hi => ⟨frameLength_encode rest hi, ?_⟩⟩
  · have hnone : Opcode.ofByte op = none := ofByte_unassigned hop
    simp [frameLength, hnone]
  · cases i with
    | crcInit | crcBit | crcByte | crcRead | i2cRead | eeRead | waitWc => rfl
    | crcMsg d => exact length_payloadFrame [0x05#8] d
    | i2cWrite a d => exact length_payloadFrame [0x10#8, a] d
    | eeWrite a off d => exact length_payloadFrame [0x21#8, a, off] d

/-! ### Reserved operand bits -/

/-- R102: a set bit above D8[0] is a reserved one. -/
theorem dataBitReserved_of_bit {d8 : Byte} {j : Nat} (h1 : 1 ≤ j) (h8 : j < 8) (hj : d8.getLsbD j = true) :
    dataBitReserved d8 = true := by
  refine bne_iff_ne.mpr fun hzero => ?_
  have hbit : (d8.extractLsb' 1 7).getLsbD (j - 1) = true := by
    have hlt : j - 1 < 7 := by omega
    have hidx : 1 + (j - 1) = j := by omega
    simp [hlt, hidx, hj]
  simp [hzero] at hbit

/-- R245: raising Illegal(RSVD) does nothing else. -/
theorem raise_rsvd (s : State) : raise (.illegal .rsvd) s = .next (onlyRaised s 0x07#8) := rfl

/-- Settles O17: each command asks for its reserved bits before it reads another operand. -/
theorem reservedBitsRaiseIllegal : Obligations.ReservedBitsRaiseIllegal := by
  refine ⟨fun s a (ha : addrReserved a = true) => ?_, fun s d8 j h1 h8 hj => ?_⟩
  · have hraise (r : Result) : (if addrReserved a then raise (.illegal .rsvd) s else r) = .next (onlyRaised s 0x07#8) :=
      (if_pos ha).trans (raise_rsvd s)
    exact ⟨fun _ => hraise _, fun _ => hraise _, fun _ _ => hraise _, fun _ _ => hraise _⟩
  · exact (if_pos (dataBitReserved_of_bit h1 h8 hj)).trans (raise_rsvd s)

/-! ### The assembler -/

theorem below_eq_some_iff {bound n m : Nat} : below bound n = some m ↔ n < bound ∧ n = m := by simp [below]

/-- R106: the addresses that the assembler accepts have A[7] = 0. -/
theorem addrReserved_of_asmAddr {n : Nat} {a : Byte} (h : asmAddr n = some a) : addrReserved a = false := by
  obtain ⟨m, hm, rfl⟩ := Option.map_eq_some_iff.mp h
  obtain ⟨hlt, rfl⟩ := below_eq_some_iff.mp hm
  have hbit : n.testBit 7 = false := Nat.testBit_lt_two_pow hlt
  rw [addrReserved, BitVec.getLsbD_ofNat, hbit]
  rfl

theorem length_of_mapM_eq_some {α β : Type} {f : α → Option β} {l : List α} {l' : List β} (h : l.mapM f = some l') :
    l'.length = l.length := by
  induction l generalizing l' with
  | nil =>
    cases h
    rfl
  | cons x xs ih =>
    rw [List.mapM_cons] at h
    obtain ⟨y, -, h⟩ := Option.bind_eq_some_iff.mp h
    obtain ⟨ys, hys, h⟩ := Option.bind_eq_some_iff.mp h
    cases h
    exact congrArg (· + 1) (ih hys)

/-- R106: the lists that the assembler accepts fit the count field. -/
theorem payloadFits_of_asmBytes {ns : List Nat} {bs : List Byte} (h : asmBytes ns = some bs) :
    payloadFits bs = true := by
  obtain ⟨hlen, h⟩ := Option.ite_none_right_eq_some.mp h
  have hbs : bs.length = ns.length := length_of_mapM_eq_some h
  exact decide_eq_true (by omega)

/-- R106: the bits that the assembler accepts leave D8[7:1] = 0. -/
theorem dataBitReserved_of_below {n b : Nat} (h : below 2 n = some b) : dataBitReserved (BitVec.ofNat 8 b) = false := by
  obtain ⟨hlt, rfl⟩ := below_eq_some_iff.mp h
  match n, hlt with
  | 0, _ | 1, _ => rfl

/-- R102, R106: the operands that the assembler accepts fit their fields and leave the reserved bits 0. -/
theorem assemble_fits {l : AsmLine} {i : Instr} (h : assemble l = some i) :
    i.wellFormed = true ∧ reservedClear i = true := by
  cases l with
  | crcInit | crcRead | waitWc =>
    cases h
    exact ⟨rfl, rfl⟩
  | crcBit b =>
    obtain ⟨c, hc, rfl⟩ := Option.map_eq_some_iff.mp h
    exact ⟨rfl, congrArg not (dataBitReserved_of_below hc)⟩
  | crcByte d =>
    obtain ⟨c, -, rfl⟩ := Option.map_eq_some_iff.mp h
    exact ⟨rfl, rfl⟩
  | crcMsg ds =>
    obtain ⟨bs, hbs, rfl⟩ := Option.map_eq_some_iff.mp h
    exact ⟨payloadFits_of_asmBytes hbs, rfl⟩
  | i2cWrite a ds =>
    obtain ⟨b, hb, h⟩ := Option.bind_eq_some_iff.mp h
    obtain ⟨bs, hbs, rfl⟩ := Option.map_eq_some_iff.mp h
    exact ⟨payloadFits_of_asmBytes hbs, congrArg not (addrReserved_of_asmAddr hb)⟩
  | i2cRead a n =>
    obtain ⟨b, hb, h⟩ := Option.bind_eq_some_iff.mp h
    obtain ⟨m, -, rfl⟩ := Option.map_eq_some_iff.mp h
    exact ⟨rfl, congrArg not (addrReserved_of_asmAddr hb)⟩
  | eeRead a off n =>
    obtain ⟨b, hb, h⟩ := Option.bind_eq_some_iff.mp h
    obtain ⟨o, -, h⟩ := Option.bind_eq_some_iff.mp h
    obtain ⟨m, -, rfl⟩ := Option.map_eq_some_iff.mp h
    exact ⟨rfl, congrArg not (addrReserved_of_asmAddr hb)⟩
  | eeWrite a off ds =>
    obtain ⟨b, hb, h⟩ := Option.bind_eq_some_iff.mp h
    obtain ⟨o, -, h⟩ := Option.bind_eq_some_iff.mp h
    obtain ⟨bs, hbs, rfl⟩ := Option.map_eq_some_iff.mp h
    exact ⟨payloadFits_of_asmBytes hbs, congrArg not (addrReserved_of_asmAddr hb)⟩

/-- Settles O47: an accepted command has a frame, and a frame decodes to its command. -/
theorem assembledLinesDecode : Obligations.AssembledLinesDecode := by
  intro l i rest h
  obtain ⟨hwf, hclear⟩ := assemble_fits h
  exact ⟨hwf, hclear, decode_encode rest hwf⟩

/-- Settles O45: the first four words are frames that the encoder writes, and 0x12 is no opcode. -/
theorem encodingExamplesDecode : Obligations.EncodingExamplesDecode :=
  ⟨decode_encode (i := .crcBit 0x01#8) [] rfl, decode_encode (i := .crcMsg [0x12#8, 0x34#8]) [0x30#8] rfl,
    decode_encode (i := .i2cRead 0x50#8 0x0102#16) [] rfl, decode_encode (i := .eeRead 0x50#8 0xF0#8 16#16) [] rfl,
    decode_unassigned [0x50#8] rfl⟩

/-! ### POKE -/

theorem asmByte_toNat (b : Byte) : asmByte b.toNat = some b := by
  have hb : b.toNat < 256 := b.isLt
  simp [asmByte, below, hb]

theorem asmAddr_toNat {a : Byte} (ha : a.getLsbD 7 = false) : asmAddr a.toNat = some a := by
  have hmsb : a.msb = false := (BitVec.msb_eq_getLsbD_last a).trans ha
  have hlt : a.toNat < 128 := by
    have := BitVec.msb_eq_false_iff_two_mul_lt.mp hmsb
    omega
  simp [asmAddr, below, hlt]

/-- R107: POKE is a raw write of two bytes and WAIT_WC. -/
theorem assemble_poke {a : Byte} (off v : Byte) (ha : a.getLsbD 7 = false) :
    (expand (.poke a.toNat off.toNat v.toNat)).bind assembleLines = some [.i2cWrite a [off, v], .waitWc] := by
  have hbytes : asmBytes [off.toNat, v.toNat] = some [off, v] := by simp [asmBytes, asmByte_toNat]
  have hline : assemble (.i2cWrite a.toNat [off.toNat, v.toNat]) = some (.i2cWrite a [off, v]) := by
    simp [assemble, asmAddr_toNat ha, hbytes]
  have hwait : assemble .waitWc = some .waitWc := rfl
  simp [expand, assembleLines, hline, hwait]

/-- Settles O40: both are one write of two bytes and a Delay; they differ in the number of responses. -/
theorem pokeEqualsOneByteEeWrite : Obligations.PokeEqualsOneByteEeWrite := by
  intro s a off v d ha ⟨_, _, hmax⟩ hcap hd hw hfits hok
  obtain ⟨w, hwrite, hhist⟩ : ∃ w, i2cWrite (busAddr a) [off, v] s = (.ok, w) ∧
      w.hist = s.hist ++ [.txW (busAddr a) [off, v] .ok] :=
    ⟨_, i2cWrite_eq [off, v] (hd ▸ writeOutcome_atRest_ok hw hok), rfl⟩
  have hpoke : runInstrs [.i2cWrite a [off, v], .waitWc] s =
      some (respond statusOk [] (waitWriteCycle (respond statusOk [] w))) := by
    rw [runInstrs, exec_i2cWrite (bs := [off, v]) ha (Nat.le_succ 1) hmax, hwrite]
    rfl
  have hee : exec (.eeWrite a off [v]) s = .next (respond statusOk [] (waitWriteCycle w)) := by
    rw [exec_eeWrite ha hcap, eeWriteLoop, offsetByte_toNat, hwrite]
    rfl
  have htime : delayTime s.cfg ((waitWriteCycle w).hist.drop s.hist.length) = s.cfg.tWc := by
    rw [waitWriteCycle_hist, hhist, List.append_assoc, List.drop_left]
    exact Nat.one_mul s.cfg.tWc
  exact ⟨_, _, _, assemble_poke off v ha, hpoke, hee, rfl, rfl, rfl, rfl, Nat.le_trans hfits (Nat.le_of_eq htime.symm)⟩

end Sys2Proof.Proofs

/-! ## The channel: transfer lengths, and a transaction as byte events

Every transition of the byte-level transceiver is said once, by what it does (`FsmRow`); that a run shows only admitted
outcomes, and where an Ok comes from, are then short case analyses. The runs with every byte acknowledged are given with
the devices at the other end (`busSteps_write`, `busSteps_read`); framing is what they leave on the wire. -/

namespace Sys2Proof.Proofs

open Sys2Proof.Machine Sys2Proof.Safety Sys2Proof.Laws

/-! ### Transfer lengths -/

theorem badLength_eq_true_iff {p : Params} {n : Nat} : badLength p n = true ↔ n = 0 ∨ p.maxXfer < n := by
  simp [badLength]

/-- R245: raising CfgError(LENGTH) does nothing else. -/
theorem raise_length (s : State) : raise (.cfg .length) s = .next (onlyRaised s 0x02#8) := rfl

/-- The two checks that I2C_WRITE, I2C_READ and EE_READ make first, where A passes and the length does not. -/
theorem checks_raise_length {s : State} {a : Byte} {n : Nat} (ha : a.getLsbD 7 = false)
    (hn : n = 0 ∨ s.cfg.maxXfer < n) (r : Result) :
    (if addrReserved a then raise (.illegal .rsvd) s else if badLength s.cfg n then raise (.cfg .length) s else r) =
      .next (onlyRaised s 0x02#8) := by
  rw [addrReserved_eq_false ha, badLength_eq_true_iff.mpr hn]
  exact raise_length s

/-- Settles O18: each of the three commands begins with those checks, and the capacity check comes after them. -/
theorem badLengthRaisesCfgError : Obligations.BadLengthRaisesCfgError := fun _ _ ha =>
  ⟨fun _ hd => checks_raise_length ha hd _,
    fun _ hn => ⟨checks_raise_length ha hn _, fun _ => checks_raise_length ha hn _⟩⟩

/-! ### What the transaction level admits -/

/-- R121: the outcome of a transaction: Ok with what the addressed device replies, if one is present and the draw makes
the transaction succeed with it; else the draw's failure. -/
theorem perform_fst (s : State) (tx : Tx) :
    (tx.perform s).1 =
      if (s.device tx.address).any (drawSucceeds (s.draw 0)) then .ok (tx.replies s) else .err (s.draw 0).cause := by
  cases tx with
  | write a bs =>
    rw [perform_write, Tx.address, Tx.replies]
    cases s.device a with
    | none => rfl
    | some d => cases hx : drawSucceeds (s.draw 0) d <;> simp [writeOutcome, WriteOutcome.bus, hx]
  | read a n =>
    rw [perform_read, Tx.address, Tx.replies]
    cases s.device a with
    | none => rfl
    | some d => cases hx : drawSucceeds (s.draw 0) d <;> simp [readOutcome, ReadOutcome.bus, hx]

/-- R121: the same outcome under a draw of the channel's choice. -/
theorem perform_drawn (s : State) (tx : Tx) (x : TxDraw) :
    (tx.perform { s with chan := x :: s.chan }).1 =
      if (s.device tx.address).any (drawSucceeds x) then .ok (tx.replies s) else .err x.cause := by
  rw [perform_fst]
  cases tx <;> rfl

/-- R121: what the transaction has in `s` it has under the draw it takes there. -/
theorem admits_perform (s : State) (tx : Tx) : tx.admits s (tx.perform s).1 :=
  ⟨s.draw 0, (perform_drawn s tx (s.draw 0)).trans (perform_fst s tx).symm⟩

/-- R121: a transaction can fail with any cause, whatever stands at its address. -/
theorem admits_err (s : State) (tx : Tx) (c : Cause) : tx.admits s (.err c) := by
  have hfails (d : Device) : drawSucceeds ⟨false, false, c⟩ d = false := by simp [drawSucceeds]
  refine ⟨⟨false, false, c⟩, ?_⟩
  rw [perform_drawn]
  cases s.device tx.address <;> simp [hfails]

/-- R59, R121: a transaction with a present device can succeed. -/
theorem admits_ok {s : State} {tx : Tx} (hd : (s.device tx.address).isSome = true) :
    tx.admits s (.ok (tx.replies s)) := by
  obtain ⟨d, hd⟩ := Option.isSome_iff_exists.mp hd
  refine ⟨⟨true, true, .unknown⟩, ?_⟩
  rw [perform_drawn, hd]
  simp [drawSucceeds]

/-- R121: an admitted outcome is a failure, or Ok with what a present device replies. -/
theorem admits_cases {s : State} {tx : Tx} {o : BusOutcome} (h : tx.admits s o) :
    (∃ c, o = .err c) ∨ (s.device tx.address).isSome = true ∧ o = .ok (tx.replies s) := by
  obtain ⟨x, rfl⟩ := h
  rw [perform_drawn]
  split
  case isTrue hx => exact .inr ⟨Option.isSome_of_any hx, rfl⟩
  case isFalse hx => exact .inl ⟨_, rfl⟩

theorem replies_read_length {s : State} {a : Addr7} {n : Nat} (hd : (s.device a).isSome = true) :
    (Tx.replies s (.read a n)).length = n := by
  obtain ⟨d, hd⟩ := Option.isSome_iff_exists.mp hd
  simp [Tx.replies, hd]

/-! ### The transitions -/

/-- R131: every transition of the transceiver by its event and where it leads. Of a transition that ends in a failure
it says no more than that. -/
inductive FsmRow (tx : Tx) (r : FsmRun) : BusEvent → FsmRun → Prop where
  | issue (hst : r.state = .idle) : FsmRow tx r .issue (fsmIssue tx r)
  | addrAck {st : Fsm} (hst : r.state = .addr) (hto : st = .wdata 0 ∨ st = .rdata 0) :
    FsmRow tx r .ack (r.goTo st [.ack])
  | sent {i : Nat} {w : List Wire} (hst : r.state = .wdata i) : FsmRow tx r .ack (r.goTo (.wdata (i + 1)) w)
  | lastSent {a : Addr7} {bs : List Byte} {i : Nat} {w : List Wire} (htx : tx = .write a bs)
    (hst : r.state = .wdata i) (hi : i + 1 = bs.length) : FsmRow tx r .ack (r.toStop w (.ok []))
  | received {i : Nat} {b : Byte} {w : List Wire} (hst : r.state = .rdata i) :
    FsmRow tx r (.byteIn b) { r.goTo (.rdata (i + 1)) w with buffer := r.buffer ++ [b] }
  | lastReceived {a : Addr7} {n i : Nat} {b : Byte} {w : List Wire} (htx : tx = .read a n)
    (hst : r.state = .rdata i) (hi : i + 1 = n) : FsmRow tx r (.byteIn b) (r.toStop w (.ok (r.buffer ++ [b])))
  | fail {e : BusEvent} (w : List Wire) (c : Cause) : FsmRow tx r e (r.toStop w (.err c))
  | lose {e : BusEvent} : FsmRow tx r e r.lose
  | stopDone (hst : r.state = .stop) : FsmRow tx r .stopDone (r.goTo .idle [.stop])

section Transitions
variable {tx : Tx} {r q : FsmRun}

theorem fsmRow_of_fsmBusFault {e : BusEvent} (h : fsmBusFault r e = some q) : FsmRow tx r e q := by
  cases e <;> cases h
  · exact .fail [] .timeout
  · exact .lose
  · exact .fail [] .unknown

theorem fsmRow_of_fsmAddrAck (hst : r.state = .addr) (h : fsmAddrAck tx r = some q) : FsmRow tx r .ack q := by
  cases tx with
  | write a bs =>
    rw [fsmAddrAck] at h
    split at h <;> cases h
    exact .addrAck hst (.inl rfl)
  | read a n =>
    cases h
    exact .addrAck hst (.inr rfl)

theorem fsmRow_of_fsmWriteAck {i : Nat} (hst : r.state = .wdata i) (h : fsmWriteAck tx r i = some q) :
    FsmRow tx r .ack q := by
  cases tx with
  | read a n => cases h
  | write a bs =>
    simp only [fsmWriteAck] at h
    split at h
    case h_2 => cases h
    case h_1 d hd =>
      have hlt : i < bs.length := (List.getElem?_eq_some_iff.mp hd).1
      split at h <;> cases h
      · exact .sent hst
      · exact .lastSent rfl hst (by omega)

theorem fsmRow_of_fsmWriteNack {i : Nat} {absent : Bool} (h : fsmWriteNack tx r i = some q) :
    FsmRow tx r (.nack absent) q := by
  cases tx with
  | read a n => cases h
  | write a bs =>
    simp only [fsmWriteNack] at h
    split at h <;> cases h
    exact .fail _ .nack

theorem fsmRow_of_fsmReadByte {i : Nat} {b : Byte} (hst : r.state = .rdata i) (h : fsmReadByte tx r i b = some q) :
    FsmRow tx r (.byteIn b) q := by
  cases tx with
  | write a bs => cases h
  | read a n =>
    simp only [fsmReadByte] at h
    split at h
    · cases h
      exact .received hst
    · split at h <;> cases h
      exact .lastReceived rfl hst ‹_›

/-- Everything a transition can do. -/
theorem fsmRow_of_fsmStep {e : BusEvent} (h : fsmStep tx r e = some q) : FsmRow tx r e q := by
  unfold fsmStep at h
  split at h
  case h_1 hst =>
    split at h <;> cases h
    exact .issue hst
  case h_2 hst =>
    split at h
    · exact fsmRow_of_fsmAddrAck hst h
    · cases h
      exact .fail _ _
    · exact fsmRow_of_fsmBusFault h
  case h_3 i hst =>
    split at h
    · exact fsmRow_of_fsmWriteAck hst h
    · exact fsmRow_of_fsmWriteNack h
    · exact fsmRow_of_fsmBusFault h
  case h_4 i hst =>
    split at h
    · exact fsmRow_of_fsmReadByte hst h
    · exact fsmRow_of_fsmBusFault h
  case h_5 hst =>
    split at h
    · cases h
      exact .stopDone hst
    · exact fsmRow_of_fsmBusFault h

/-! ### Where an Ok comes from -/

/-- R131: a run comes to STOP with Ok through a row marked "outcome Ok". -/
theorem FsmRow.okRow_of_stop_ok {e : BusEvent} {bs : List Byte} (h : FsmRow tx r e q) (hst : q.state = .stop)
    (ho : q.outcome = some (.ok bs)) : okRow tx r.state e = true := by
  cases h with
  | lastSent htx hst' hi => simp [okRow, htx, hst', hi]
  | lastReceived htx hst' hi => simp [okRow, htx, hst', hi]
  | fail w c => cases ho
  | addrAck hst' hto => obtain rfl | rfl := hto <;> cases hst
  | issue | sent | received | lose | stopDone => cases hst

/-- R131: a run comes to IDLE with Ok from STOP, once STOP has been driven. -/
theorem FsmRow.stopDone_of_idle_ok {e : BusEvent} {bs : List Byte} (h : FsmRow tx r e q) (hst : q.state = .idle)
    (ho : q.outcome = some (.ok bs)) : e = .stopDone ∧ r.state = .stop ∧ r.outcome = some (.ok bs) := by
  cases h with
  | stopDone hst' => exact ⟨rfl, hst', ho⟩
  | lose => cases ho
  | addrAck hst' hto => obtain rfl | rfl := hto <;> cases hst
  | issue | sent | lastSent | received | lastReceived | fail => cases hst

/-- R131: the rows marked "outcome Ok" lead to STOP with Ok. -/
theorem fsmStep_of_okRow {e : BusEvent} (h : okRow tx r.state e = true) :
    ∃ w bs, fsmStep tx r e = some (r.toStop w (.ok bs)) := by
  unfold okRow at h
  split at h
  case h_1 a bs i hst =>
    have hi : i + 1 = bs.length := beq_iff_eq.mp h
    have hlt : i < bs.length := by omega
    exact ⟨[.byte bs[i], .ack], [], by simp [fsmStep, hst, fsmWriteAck, List.getElem?_eq_getElem hlt, hi]⟩
  case h_2 a n i b hst =>
    have hi : i + 1 = n := beq_iff_eq.mp h
    exact ⟨[.byte b, .nack], r.buffer ++ [b], by simp [fsmStep, hst, fsmReadByte, hi]⟩
  case h_3 => cases h

/-- The last event of a run from the start that has an outcome. -/
theorem fsmSteps_last {es : List BusEvent} {o : BusOutcome} (h : fsmSteps tx es .start = some r)
    (ho : r.outcome = some o) :
    ∃ es' e q, es = es' ++ [e] ∧ fsmSteps tx es' .start = some q ∧ fsmStep tx q e = some r := by
  obtain rfl | ⟨es', e, rfl⟩ := es.eq_nil_or_concat
  · cases h
    cases ho
  · rw [List.concat_eq_append] at h ⊢
    rw [fsmSteps_append] at h
    obtain ⟨q, hq, h⟩ := Option.bind_eq_some_iff.mp h
    exact ⟨es', e, q, rfl, hq, by simpa [fsmSteps] using h⟩

theorem okRow_of_completed_ok {es : List BusEvent} {bs : List Byte} (h : fsmSteps tx es .start = some r)
    (hc : r.completed (.ok bs)) :
    ∃ es' e r', es = es' ++ [e, .stopDone] ∧ fsmSteps tx es' .start = some r' ∧ okRow tx r'.state e = true := by
  obtain ⟨hidle, ho⟩ := hc
  obtain ⟨es₁, _, q, rfl, hq, hlast⟩ := fsmSteps_last h ho
  obtain ⟨rfl, hstop, hoq⟩ := (fsmRow_of_fsmStep hlast).stopDone_of_idle_ok hidle ho
  obtain ⟨es', e, r', rfl, hr', hrow⟩ := fsmSteps_last hq hoq
  exact ⟨es', e, r', by simp, hr', (fsmRow_of_fsmStep hrow).okRow_of_stop_ok hstop hoq⟩

theorem completed_ok_of_okRow {es : List BusEvent} {e : BusEvent} {r' : FsmRun} {o : BusOutcome}
    (h : fsmSteps tx (es ++ [e, .stopDone]) .start = some r) (hr' : fsmSteps tx es .start = some r')
    (hrow : okRow tx r'.state e = true) (hc : r.completed o) : ∃ bs, o = .ok bs := by
  obtain ⟨w, bs, hstep⟩ := fsmStep_of_okRow hrow
  have hend : fsmSteps tx [e, .stopDone] r' = some ((r'.toStop w (.ok bs)).goTo .idle [.stop]) := by
    rw [fsmSteps, hstep]
    rfl
  rw [fsmSteps_append, hr', Option.bind_some, hend] at h
  cases h
  obtain ⟨-, ho⟩ := hc
  cases ho
  exact ⟨bs, rfl⟩

end Transitions

/-! ### A run shows only admitted outcomes -/

/-- R121, R132, R135: what a run with the devices of `s` keeps. Its outcome is admitted, it is past the address byte
only with a present device, and its read buffer holds what that device has replied so far. -/
structure Faithful (s : State) (tx : Tx) (r : FsmRun) : Prop where
  outcome : ∀ o, r.outcome = some o → tx.admits s o
  addr : r.state = .addr → r.buffer = []
  wdata : ∀ i, r.state = .wdata i → (s.device tx.address).isSome = true
  rdata : ∀ i, r.state = .rdata i → (s.device tx.address).isSome = true ∧ r.buffer = (tx.replies s).take i

section Faithful
variable {s : State} {tx : Tx} {r q : FsmRun}

theorem faithful_start (s : State) (tx : Tx) : Faithful s tx .start where
  outcome _ h := by cases h
  addr h := by cases h
  wdata _ h := by cases h
  rdata _ h := by cases h

/-- In IDLE and in STOP the outcome is all there is to keep. -/
theorem faithful_of_ended (hst : r.state = .idle ∨ r.state = .stop) (ho : ∀ o, r.outcome = some o → tx.admits s o) :
    Faithful s tx r where
  outcome := ho
  addr h := by simp [h] at hst
  wdata _ h := by simp [h] at hst
  rdata _ h := by simp [h] at hst

theorem faithful_toStop {w : List Wire} {o : BusOutcome} (ho : tx.admits s o) : Faithful s tx (r.toStop w o) :=
  faithful_of_ended (.inr rfl) fun o' h => by cases h; exact ho

/-- R59: with a byte that the bus allows, the buffer is again what the device has replied so far. -/
theorem buffer_append_of_allowed {i : Nat} {b : Byte} (hbuf : r.buffer = (tx.replies s).take i)
    (ha : busAllows s tx (.rdata i) (.byteIn b) = true) : r.buffer ++ [b] = (tx.replies s).take (i + 1) := by
  have hb : (tx.replies s)[i]? = some b := beq_iff_eq.mp ha
  rw [List.take_add_one, hb, hbuf]
  rfl

theorem Faithful.fsmRow {e : BusEvent} (h : Faithful s tx r) (ha : busAllows s tx r.state e = true)
    (hrow : FsmRow tx r e q) : Faithful s tx q := by
  cases hrow with
  | issue hst =>
    exact ⟨fun _ ho => (by cases ho), fun _ => rfl, fun _ hq => (by cases hq), fun _ hq => (by cases hq)⟩
  | addrAck hst hto =>
    rw [hst] at ha
    refine ⟨h.outcome, fun hq => ?_, fun _ _ => ha, fun i hq => ⟨ha, ?_⟩⟩
    · obtain rfl | rfl := hto <;> cases hq
    · obtain rfl | rfl := hto <;> cases hq
      exact h.addr hst
  | sent hst => exact ⟨h.outcome, fun hq => (by cases hq), fun _ _ => h.wdata _ hst, fun _ hq => (by cases hq)⟩
  | lastSent htx hst hi =>
    have hok := admits_ok (h.wdata _ hst)
    subst htx
    exact faithful_toStop hok
  | @received i b w hst =>
    obtain ⟨hd, hbuf⟩ := h.rdata _ hst
    rw [hst] at ha
    refine ⟨h.outcome, fun hq => (by cases hq), fun _ hq => (by cases hq), fun j hq => ⟨hd, ?_⟩⟩
    cases hq
    exact buffer_append_of_allowed hbuf ha
  | @lastReceived a n i b w htx hst hi =>
    obtain ⟨hd, hbuf⟩ := h.rdata _ hst
    rw [hst] at ha
    have hall : (tx.replies s).take (i + 1) = tx.replies s := by
      subst htx
      exact List.take_of_length_le (Nat.le_of_eq ((replies_read_length hd).trans hi.symm))
    rw [buffer_append_of_allowed hbuf ha, hall]
    exact faithful_toStop (admits_ok hd)
  | fail w c => exact faithful_toStop (admits_err s tx c)
  | lose => exact faithful_of_ended (.inl rfl) fun o ho => by cases ho; exact admits_err s tx .arbLost
  | stopDone hst => exact faithful_of_ended (.inl rfl) h.outcome

theorem Faithful.busSteps {es : List BusEvent} (h : Faithful s tx r) (hrun : busSteps s tx es r = some q) :
    Faithful s tx q := by
  induction es generalizing r with
  | nil => cases hrun; exact h
  | cons e es ih =>
    obtain ⟨ha, r', hstep, hrun⟩ := busSteps_cons hrun
    exact ih (h.fsmRow ha (fsmRow_of_fsmStep hstep)) hrun

end Faithful

/-- Settles O52: a run keeps `Faithful`; the last two transitions of a run that completes with Ok are a row marked
"outcome Ok" and the STOP. -/
theorem byteLevelOutcomesAreAdmitted : Obligations.ByteLevelOutcomesAreAdmitted := by
  refine ⟨fun s tx es r o hrun hc => ((faithful_start s tx).busSteps hrun).outcome o hc.2,
    fun tx es r o hrun hc => ⟨?_, ?_⟩⟩
  · rintro ⟨bs, rfl⟩
    exact okRow_of_completed_ok hrun hc
  · rintro ⟨es', e, r', rfl, hr', hrow⟩
    exact completed_ok_of_okRow hrun hr' hrow hc

/-! ### The runs in which every byte is acknowledged -/

/-- One event of a run. -/
theorem busSteps_cons_eq {s : State} {tx : Tx} {e : BusEvent} {es : List BusEvent} {r q : FsmRun}
    (ha : busAllows s tx r.state e = true) (hq : fsmStep tx r e = some q) :
    busSteps s tx (e :: es) r = busSteps s tx es q := by
  rw [busSteps, if_pos ha, hq, Option.bind_some]

section Allowed
variable {s : State} {tx : Tx} {st : Fsm} {i : Nat}

theorem busAllows_addrAck (hd : (s.device tx.address).isSome = true) : busAllows s tx .addr .ack = true := hd

theorem busAllows_wdataAck (hst : st = .wdata i) : busAllows s tx st .ack = true := by
  subst hst
  rfl

/-- R59: the device may reply the next of the bytes it has still to reply. -/
theorem busAllows_byteIn {b : Byte} {bs : List Byte} (hst : st = .rdata i) (hrep : (tx.replies s).drop i = b :: bs) :
    busAllows s tx st (.byteIn b) = true := by
  have hb : (tx.replies s)[i]? = some b := by
    rw [← List.head?_drop, hrep]
    rfl
  subst hst
  exact beq_iff_eq.mpr hb

end Allowed

theorem goTo_toStop (r : FsmRun) (st : Fsm) (w w' : List Wire) (o : BusOutcome) :
    (r.goTo st w).toStop w' o = r.toStop (w ++ w') o := by
  simp [FsmRun.goTo, FsmRun.toStop]

/-- R131: WDATA sends the bytes still to send, and each is acknowledged. -/
theorem busSteps_writeData (s : State) (a : Addr7) (sent : List Byte) (v : Byte) (vs : List Byte) {r : FsmRun}
    (hst : r.state = .wdata sent.length) :
    busSteps s (.write a (sent ++ v :: vs)) ((v :: vs).map fun _ => .ack) r =
      some (r.toStop ((v :: vs).flatMap fun b => [.byte b, .ack]) (.ok [])) := by
  induction vs generalizing sent v r with
  | nil =>
    have hlast : fsmStep (.write a (sent ++ [v])) r .ack = some (r.toStop [.byte v, .ack] (.ok [])) := by
      simp [fsmStep, hst, fsmWriteAck]
    rw [List.map_singleton, busSteps_cons_eq (busAllows_wdataAck hst) hlast]
    rfl
  | cons u us ih =>
    have hnext : fsmStep (.write a (sent ++ v :: u :: us)) r .ack =
        some (r.goTo (.wdata (sent ++ [v]).length) [.byte v, .ack]) := by
      simp [fsmStep, hst, fsmWriteAck]
    have hrest := ih (sent ++ [v]) u (r := r.goTo (.wdata (sent ++ [v]).length) [.byte v, .ack]) rfl
    rw [List.append_assoc, goTo_toStop] at hrest
    rw [List.map_cons, busSteps_cons_eq (busAllows_wdataAck hst) hnext]
    exact hrest

/-- R130, R131: a write that a present device acknowledges throughout, and what it leaves on the bus. -/
theorem busSteps_write {s : State} {a : Addr7} {bs : List Byte} (hbs : bs ≠ []) (hd : (s.device a).isSome = true) :
    ∃ r, busSteps s (.write a bs) (.issue :: .ack :: (bs.map (fun _ => .ack) ++ [.stopDone])) .start = some r ∧
      r.completed (.ok []) ∧
      r.wire = .start :: .byte (a ++ 0#1) :: .ack :: (bs.flatMap (fun b => [.byte b, .ack]) ++ [.stop]) := by
  obtain ⟨v, vs, rfl⟩ := List.exists_cons_of_ne_nil hbs
  have hdata := busSteps_writeData s a [] v vs (r := (fsmIssue (.write a (v :: vs)) .start).goTo (.wdata 0) [.ack]) rfl
  rw [List.nil_append] at hdata
  rw [busSteps_cons_eq rfl rfl, busSteps_cons_eq (busAllows_addrAck hd) rfl, busSteps_append, hdata,
    Option.bind_some, busSteps_cons_eq rfl rfl]
  exact ⟨_, rfl, ⟨rfl, rfl⟩, rfl⟩

/-- R131, R132: RDATA receives the bytes that the device has still to reply, and all but the last are acknowledged. -/
theorem busSteps_readData {s : State} {a : Addr7} {n : Nat} (bs : List Byte) (b : Byte) {i : Nat} {r : FsmRun}
    (hst : r.state = .rdata i) (hlen : i + bs.length + 1 = n)
    (hrep : (Tx.replies s (.read a n)).drop i = bs ++ [b]) :
    busSteps s (.read a n) ((bs ++ [b]).map .byteIn) r =
      some ({ r with buffer := r.buffer ++ bs }.toStop
        (bs.flatMap (fun b => [Wire.byte b, .ack]) ++ [Wire.byte b, .nack]) (.ok (r.buffer ++ (bs ++ [b])))) := by
  induction bs generalizing i r with
  | nil =>
    have hlast : fsmStep (.read a n) r (.byteIn b) = some (r.toStop [.byte b, .nack] (.ok (r.buffer ++ [b]))) := by
      have hi : i + 1 = n := hlen
      simp [fsmStep, hst, fsmReadByte, hi]
    rw [List.nil_append, List.map_singleton, busSteps_cons_eq (busAllows_byteIn hst hrep) hlast]
    simp [busSteps, FsmRun.toStop]
  | cons v vs ih =>
    have hlen' : i + 1 + vs.length + 1 = n := by
      rw [List.length_cons] at hlen
      omega
    have hnext : fsmStep (.read a n) r (.byteIn v) =
        some { r.goTo (.rdata (i + 1)) [.byte v, .ack] with buffer := r.buffer ++ [v] } := by
      have hi : i + 1 < n := by omega
      simp [fsmStep, hst, fsmReadByte, hi]
    have hrep' : (Tx.replies s (.read a n)).drop (i + 1) = vs ++ [b] := by
      rw [← List.drop_drop, hrep]
      rfl
    rw [List.cons_append, List.map_cons, busSteps_cons_eq (busAllows_byteIn hst hrep) hnext, ih rfl hlen' hrep']
    simp [FsmRun.goTo, FsmRun.toStop]

/-- R130, R131: a read that a present device answers throughout, and what it leaves on the bus. -/
theorem busSteps_read {s : State} {a : Addr7} {bs : List Byte} {b : Byte} (hd : (s.device a).isSome = true)
    (hrep : Tx.replies s (.read a (bs.length + 1)) = bs ++ [b]) :
    ∃ r, busSteps s (.read a (bs.length + 1)) (.issue :: .ack :: ((bs ++ [b]).map .byteIn ++ [.stopDone])) .start =
        some r ∧
      r.completed (.ok (bs ++ [b])) ∧
      r.wire = .start :: .byte (a ++ 1#1) :: .ack ::
        (bs.flatMap (fun b => [.byte b, .ack]) ++ [.byte b, .nack, .stop]) := by
  rw [busSteps_cons_eq rfl rfl, busSteps_cons_eq (busAllows_addrAck hd) rfl, busSteps_append,
    busSteps_readData (i := 0) bs b rfl (by omega) hrep, Option.bind_some, busSteps_cons_eq rfl rfl]
  exact ⟨_, rfl, ⟨rfl, rfl⟩, by simp [FsmRun.goTo, FsmRun.toStop, fsmIssue, FsmRun.start, addressByte]⟩

/-! ### Every admitted outcome has a run -/

/-- R131, R134: each cause of a failure, by events that any device, or none, lets happen. -/
theorem busSteps_err (s : State) (tx : Tx) (c : Cause) :
    ∃ es r, busSteps s tx es .start = some r ∧ r.completed (.err c) := by
  cases c with
  | unknown => exact ⟨[.issue, .controllerFault, .stopDone], _, rfl, rfl, rfl⟩
  | nack => exact ⟨[.issue, .nack false, .stopDone], _, rfl, rfl, rfl⟩
  | timeout => exact ⟨[.issue, .timeout, .stopDone], _, rfl, rfl, rfl⟩
  | absent => exact ⟨[.issue, .nack true, .stopDone], _, rfl, rfl, rfl⟩
  | arbLost => exact ⟨[.issue, .arbLost], _, rfl, rfl, rfl⟩

/-- R131: a transaction with a present device succeeds when every byte is acknowledged. -/
theorem busSteps_ok {s : State} {tx : Tx} (hc : tx.carries) (hd : (s.device tx.address).isSome = true) :
    ∃ es r, busSteps s tx es .start = some r ∧ r.completed (.ok (tx.replies s)) := by
  cases tx with
  | write a bs =>
    obtain ⟨r, hrun, hok, -⟩ := busSteps_write (bs := bs) hc hd
    exact ⟨_, r, hrun, hok⟩
  | read a n =>
    have hlen : (Tx.replies s (.read a n)).length = n := replies_read_length hd
    obtain hnil | ⟨bs, b, hrep⟩ := (Tx.replies s (.read a n)).eq_nil_or_concat
    · exact absurd (hlen.symm.trans (congrArg List.length hnil)) (Nat.ne_of_gt hc)
    · rw [List.concat_eq_append] at hrep
      obtain rfl : n = bs.length + 1 := by rw [← hlen, hrep, List.length_append, List.length_singleton]
      obtain ⟨r, hrun, hok, -⟩ := busSteps_read hd hrep
      exact ⟨_, r, hrun, hrep ▸ hok⟩

/-- Settles O53: an admitted outcome is a failure with a cause, or the Ok of a present device. -/
theorem byteLevelRealisesEveryOutcome : Obligations.ByteLevelRealisesEveryOutcome := by
  refine fun s tx hc => ⟨admits_perform s tx, fun o ho => ?_⟩
  obtain ⟨c, rfl⟩ | ⟨hd, rfl⟩ := admits_cases ho
  · exact busSteps_err s tx c
  · exact busSteps_ok hc hd

/-! ### Framing -/

/-- A bench whose one device, at `a`, replies `bs` to a read of as many bytes. -/
def replying (a : Addr7) (bs : List Byte) : State :=
  { State.reset with
    cfg := { Params.launch with cap := bs.length }
    dev := [(a.toNat, ⟨Memory.fill bs.length (bs.getD · 0x00#8), some 0x00#8, false, 0⟩)] }

theorem device_replying (a : Addr7) (bs : List Byte) :
    (replying a bs).device a = some ⟨Memory.fill bs.length (bs.getD · 0x00#8), some 0x00#8, false, 0⟩ := by
  simp [replying, State.device, lookupKey]

theorem isSome_device_replying (a : Addr7) (bs : List Byte) : ((replying a bs).device a).isSome = true := by
  rw [device_replying]
  rfl

theorem replies_replying (a : Addr7) (bs : List Byte) : Tx.replies (replying a bs) (.read a bs.length) = bs := by
  have hcap : (0x00#8 : Off8).toNat + bs.length ≤ (replying a bs).cfg.cap := by simp [replying]
  simp only [Tx.replies, device_replying]
  rw [readBytes_pointer rfl rfl hcap]
  refine List.ext_getElem (memoryBytes_length _ _ _) fun k _ hk => ?_
  simp [memoryBytes, Memory.read_fill, hk]

/-- Settles O54: the framing is that of the runs above, with a device that is present and replies the bytes read. -/
theorem byteLevelFraming : Obligations.ByteLevelFraming := by
  refine ⟨fun a bs hbs => ?_, fun a bs b => ?_⟩
  · obtain ⟨r, hrun, hend⟩ := busSteps_write hbs (isSome_device_replying a bs)
    exact ⟨r, fsmSteps_of_busSteps hrun, hend⟩
  · have hrep : Tx.replies (replying a (bs ++ [b])) (.read a (bs.length + 1)) = bs ++ [b] := by
      simpa using replies_replying a (bs ++ [b])
    obtain ⟨r, hrun, hend⟩ := busSteps_read (isSome_device_replying a (bs ++ [b])) hrep
    exact ⟨r, fsmSteps_of_busSteps hrun, hend⟩

end Sys2Proof.Proofs

/-! ## EEPROM access: EE_READ, EE_WRITE, WAIT_WC and the clone property

EE_READ of any state is one of three shapes (`exec_eeRead_cases`), of a device at rest on a reliable channel one equation
(`eeRead_atRest_ok`). The paced writes of a device at rest leave `storePaced` in it; `eeWriteLoop_paced` says so for the
bytes before any that are still to be written, so it serves the whole payload and the bytes before a failure alike. -/

namespace Sys2Proof.Proofs

open Sys2Proof.Machine Sys2Proof.Safety Sys2Proof.Laws

/-! ### Past the capacity -/

theorem pastCapacity_eq_true_iff {p : Params} {off : Off8} {n : Nat} :
    pastCapacity p off n = true ↔ p.cap < off.toNat + n := by
  simp [pastCapacity]

/-- R151, R245: the capacity check raises CfgError(CAPACITY), and nothing else happens. -/
theorem capacityCheck_raises {s : State} {off : Off8} {n : Nat} (hn : s.cfg.cap < off.toNat + n) (r : Result) :
    (if pastCapacity s.cfg off n then raise (.cfg .capacity) s else r) = .next (onlyRaised s 0x06#8) :=
  if_pos (pastCapacity_eq_true_iff.mpr hn)

/-- Settles O19: both commands come to the capacity check before their first transaction. -/
theorem pastCapacityRaisesCfgError : Obligations.PastCapacityRaisesCfgError := by
  intro s a off ha
  refine ⟨fun n hpos hmax hcap => ?_, fun bs hcap => ?_⟩
  · show execEeRead a off n s = _
    rw [execEeRead, addrReserved_eq_false ha, badLength_eq_false_iff.mpr ⟨hpos, hmax⟩]
    exact capacityCheck_raises hcap _
  · show execEeWrite a off bs s = _
    rw [execEeWrite, addrReserved_eq_false ha]
    exact capacityCheck_raises hcap _

/-! ### EE_READ -/

/-- Everything EE_READ can do: an error before any transaction, a failing pointer write, or both transactions. -/
theorem exec_eeRead_cases (a off : Byte) (n : Count) (s : State) : ∃ t, exec (.eeRead a off n) s = .next t ∧
    ((∃ e : Error, Performed (busAddr a) [] e.status [] s t) ∨
     (∃ c, Performed (busAddr a) [.txW (busAddr a) [off] (.err c)] (ioStatus c) [] s t) ∨
     ∃ r, (∀ bs, r = .ok bs → bs.length = n.toNat) ∧
      Performed (busAddr a) [.txW (busAddr a) [off] .ok, .txR (busAddr a) n.toNat r] (readStatus r) (readData r)
        s t) := by
  obtain ⟨ha, hpos, hmax, hcap⟩ | ⟨e, he⟩ := exec_eeRead_checks a off n s
  · cases hw : writeOutcome (s.draw 0) (s.device (busAddr a)) with
    | err c =>
      exact ⟨_, exec_eeRead_of_pointer_err ha hpos hmax hcap (i2cWrite_eq [off] hw),
        .inr (.inl ⟨c, performed_completeTx ..⟩)⟩
    | ok =>
      have hx := exec_eeRead_of_pointer_ok ha hpos hmax hcap (i2cWrite_eq [off] hw)
      rw [i2cRead_eq rfl, finishRead_eq] at hx
      exact ⟨_, hx, .inr (.inr ⟨_, fun bs => readOutcome_length, performed_completeTx_twice ..⟩)⟩
  · exact ⟨_, he, .inl ⟨e, fun _ _ => rfl, (List.append_nil _).symm, ⟨rfl, rfl, rfl⟩, rfl, rfl, rfl, rfl⟩⟩

/-- Settles O33: the histories of the three cases. -/
theorem eeReadTransactionsInOrder : Obligations.EeReadTransactionsInOrder := by
  intro s a off n
  obtain ⟨t, hx, ⟨e, -, hhist, -⟩ | ⟨c, -, hhist, -⟩ | ⟨r, -, -, hhist, -⟩⟩ := exec_eeRead_cases a off n s
  · exact ⟨t, hx, .inl (hhist.trans (List.append_nil _))⟩
  · exact ⟨t, hx, .inr (.inl ⟨c, hhist⟩)⟩
  · exact ⟨t, hx, .inr (.inr ⟨r, hhist⟩)⟩

theorem memoryBytes_getElem? (m : Memory) (off : Nat) {n k : Nat} (hk : k < n) :
    (memoryBytes m off n)[k]? = some (Memory.read m (off + k)) := by
  simp [memoryBytes, hk]

/-- A command gives one response, so its data is the data of any response it is found to have given. -/
theorem data_eq_of_reported {s t : State} {st st' : Byte} {data data' : List Byte} (h : Reported s t st data)
    (h' : t.rsps = s.rsps ++ [⟨st', data'⟩]) : data = data' := by
  obtain ⟨-, hrsps, -⟩ := h
  have hrsp : [Rsp.mk st data] = [⟨st', data'⟩] := List.append_cancel_left (hrsps.symm.trans h')
  cases hrsp
  rfl

/-- Settles O32: only the case with both transactions can end OK; the bytes are those of `eeRead_ok_bytes`. -/
theorem eeReadIsAllOrNothing : Obligations.EeReadIsAllOrNothing := by
  intro s a off n
  obtain ⟨t, hx, ⟨e, -, -, hrep, -⟩ | ⟨c, -, -, hrep, -⟩ | ⟨r, hlen, -, -, hrep, -⟩⟩ := exec_eeRead_cases a off n s
  · exact ⟨t, _, _, hx, hrep, fun hst => absurd hst (status_error_ne_ok e), fun _ => rfl⟩
  · exact ⟨t, _, _, hx, hrep, fun hst => absurd hst (ioStatus_ne_ok c), fun _ => rfl⟩
  · cases r with
    | err c => exact ⟨t, _, _, hx, hrep, fun hst => absurd hst (ioStatus_ne_ok c), fun _ => rfl⟩
    | ok bs =>
      refine ⟨t, _, _, hx, hrep, fun hst => ⟨hlen bs rfl, fun d hd hw k hk => ?_⟩, fun hst => absurd rfl hst⟩
      have hstatus : t.status = 0x00#8 := hrep.1
      have hbytes : bs = memoryBytes d.mem off.toNat n.toNat :=
        data_eq_of_reported hrep (eeRead_ok_bytes hd hw hx hstatus)
      exact hbytes ▸ memoryBytes_getElem? d.mem off.toNat hk

/-- R152: EE_READ of a legal range of a device at rest, both transactions Ok. -/
theorem eeRead_atRest_ok {s : State} {a off : Byte} {n : Count} {d : Device} (ha : a.getLsbD 7 = false)
    (hpos : 1 ≤ n.toNat) (hmax : n.toNat ≤ s.cfg.maxXfer) (hcap : off.toNat + n.toNat ≤ s.cfg.cap)
    (hd : s.device (busAddr a) = some d) (hw : d.wcp = false) (hch : ChannelReliable 2 s) :
    ∃ t, exec (.eeRead a off n) s = .next t ∧ t.device (busAddr a) = some { d with ptr := none } ∧
      Performed (busAddr a)
        [.txW (busAddr a) [off] .ok, .txR (busAddr a) n.toNat (.ok (memoryBytes d.mem off.toNat n.toNat))]
        0x00#8 (memoryBytes d.mem off.toNat n.toNat) s t := by
  have hptr : d.afterWrite s.cfg.cap s.tx [off] .ok = { d with ptr := some off } := afterWrite_ok hw _
  have hw' : (d.afterWrite s.cfg.cap s.tx [off] .ok).wcp = false := by rw [hptr]; exact hw
  have hread : readOutcome s.cfg (s.tx + 1) n.toNat (s.draw 1) (some (d.afterWrite s.cfg.cap s.tx [off] .ok)) =
      .ok (memoryBytes d.mem off.toNat n.toNat) := by
    rw [readOutcome_atRest_ok hw' (hch 1 (by omega)), readBytes_pointer hw' (by rw [hptr]) hcap, hptr]
  have h := eeRead_present_pointer_ok ha hd hpos hmax hcap (writeOutcome_atRest_ok hw (hch 0 (by omega))) hread
  rwa [afterRead_atRest hw', hptr] at h

/-- Settles O31: `eeRead_atRest_ok`, byte by byte. -/
theorem eeReadReturnsMemory : Obligations.EeReadReturnsMemory := by
  intro s a off n d ha hpos hmax hcap hd hw hch
  obtain ⟨t, hx, hdev, hp⟩ := eeRead_atRest_ok ha hpos hmax hcap hd hw hch
  exact ⟨t, _, hx, memoryBytes_length .., fun k hk => memoryBytes_getElem? _ _ hk, hdev, hp⟩

/-! ### Decoding what EE_READ returns -/

/-- R69: every field lies in the first 128 bytes. -/
theorem last_le_128 (f : HeaderField) : f.last ≤ 128 := by cases f <;> decide

theorem bytes_take_128 (f : HeaderField) (image : List Byte) : f.bytes (image.take 128) = f.bytes image := by
  have hlast := last_le_128 f
  rw [HeaderField.bytes, HeaderField.bytes, imageSlice, imageSlice, List.drop_take, List.take_take,
    Nat.min_eq_left (by omega)]

theorem present_take_128 (f : HeaderField) (image : List Byte) :
    f.present (image.take 128) = f.present image := by
  have hlast := last_le_128 f
  rw [Bool.eq_iff_iff, present_iff, present_iff, List.length_take]
  omega

theorem decodeField_take_128 {α : Type} (image : List Byte) (f : HeaderField) (value : List Byte → α) :
    decodeField (image.take 128) f value = decodeField image f value := by
  rw [decodeField, decodeField, present_take_128, bytes_take_128]

/-- R219: the decoder reads the first 128 bytes only. -/
theorem decodeHeader_take_128 (p : Params) (image : List Byte) : decodeHeader p (image.take 128) = decodeHeader p image := by
  simp [decodeHeader, decodeRecord, skippedFields, decodeField_take_128, present_take_128]

/-- R275: the first bytes of a known image are those of the device's memory. -/
theorem memoryBytes_of_imageKnown {a : Addr7} {image : List Byte} {s : State} {d : Device} {n : Nat}
    (h : ImageKnown a image s) (hd : s.device a = some d) (hn : n ≤ s.cfg.cap) :
    memoryBytes d.mem 0 n = image.take n := by
  obtain ⟨-, d', hd', hbytes⟩ := h
  cases hd.symm.trans hd'
  refine List.ext_getElem? fun k => ?_
  by_cases hk : k < n
  · rw [memoryBytes_getElem? _ _ hk, List.getElem?_take_of_lt hk, hbytes k (by omega), Nat.zero_add]
  · rw [List.getElem?_eq_none (by rw [memoryBytes_length]; omega),
      List.getElem?_eq_none (by rw [List.length_take]; omega)]

/-- Settles O60: the bytes read are the first 128 of the image, and the decoder reads no others. -/
theorem decodeOfReadEqualsDecodeOfImage : Obligations.DecodeOfReadEqualsDecodeOfImage := by
  intro s a image d ha hmax hcap himage hd hw hch
  obtain ⟨t, hx, -, -, -, hrep, -⟩ := eeRead_atRest_ok (off := 0x00#8) (n := 128#16) ha (by decide) hmax
    (by simpa using hcap) hd hw hch
  have hbytes : memoryBytes d.mem 0 128 = image.take 128 := memoryBytes_of_imageKnown himage hd hcap
  exact ⟨t, _, hx, hrep, hbytes, (congrArg (decodeHeader s.cfg) hbytes).trans (decodeHeader_take_128 s.cfg image)⟩

/-! ### WAIT_WC -/

/-- Settles O38: the frame has no operand, and the command is one Delay. -/
theorem waitWcEndsWriteCycles : Obligations.WaitWcEndsWriteCycles :=
  ⟨fun rest => decode_encode (i := .waitWc) rest rfl,
    fun s => ⟨_, rfl, device_waitWriteCycle s, rfl, ⟨rfl, rfl, rfl⟩, rfl, rfl, rfl, rfl⟩⟩

/-! ### The device after paced writes -/

/-- R156, R158: the device after the bytes have been stored from offset `o` on, each followed by a Delay. -/
def storePaced (o : Nat) : List Byte → Device → Device
  | [], d => d
  | v :: vs, d => storePaced (o + 1) vs (d.store (offsetByte o) v).rest

theorem toNat_offsetByte {o : Nat} (ho : o < 256) : (offsetByte o).toNat = o := by
  rw [offsetByte, BitVec.toNat_ofNat, Nat.mod_eq_of_lt ho]

theorem storePaced_wcp (bs : List Byte) {o : Nat} {d : Device} (hw : d.wcp = false) :
    (storePaced o bs d).wcp = false := by
  induction bs generalizing o d with
  | nil => exact hw
  | cons v vs ih => exact ih rfl

theorem storePaced_ptr_none (bs : List Byte) {o : Nat} {d : Device} (hp : d.ptr = none) :
    (storePaced o bs d).ptr = none := by
  induction bs generalizing o d with
  | nil => exact hp
  | cons v vs ih => exact ih rfl

theorem storePaced_ptr (bs : List Byte) (o : Nat) (d : Device) :
    (storePaced o bs d).ptr = if bs = [] then d.ptr else none := by
  cases bs with
  | nil => rfl
  | cons v vs => exact storePaced_ptr_none vs rfl

theorem storePaced_cycle (bs : List Byte) (o : Nat) (d : Device) : (storePaced o bs d).cycle = d.cycle := by
  induction bs generalizing o d with
  | nil => rfl
  | cons v vs ih => exact ih ..

/-- Each stored byte is at its offset, and every other byte is as before. -/
theorem read_storePaced (bs : List Byte) {o : Nat} (d : Device) (x : Nat) (h256 : o + bs.length ≤ 256) :
    Memory.read (storePaced o bs d).mem x =
      if o ≤ x then (bs[x - o]?).getD (Memory.read d.mem x) else Memory.read d.mem x := by
  induction bs generalizing o d with
  | nil => simp [storePaced]
  | cons v vs ih =>
    rw [List.length_cons] at h256
    have hstore : Memory.read (d.store (offsetByte o) v).rest.mem x = if x = o then v else Memory.read d.mem x := by
      rw [Device.rest, read_store, toNat_offsetByte (by omega)]
    rw [storePaced, ih _ (by omega), hstore]
    obtain hlt | rfl | hgt := Nat.lt_trichotomy x o
    · rw [if_neg (by omega), if_neg (by omega), if_neg (by omega)]
    · rw [if_neg (by omega), if_pos rfl, if_pos (Nat.le_refl x), Nat.sub_self]
      rfl
    · rw [if_pos (by omega), if_neg (by omega), if_pos (by omega), show x - o = x - (o + 1) + 1 by omega,
        List.getElem?_cons_succ]

theorem wf_storePaced {cap : Nat} (bs : List Byte) {o : Nat} {d : Device} (hm : Memory.wf cap d.mem)
    (h256 : cap ≤ 256) (hcap : o + bs.length ≤ cap) : Memory.wf cap (storePaced o bs d).mem := by
  induction bs generalizing o d with
  | nil => exact hm
  | cons v vs ih =>
    rw [List.length_cons] at hcap
    have hstore : Memory.wf cap (d.store (offsetByte o) v).rest.mem :=
      Memory.wf_write _ v hm (by rw [toNat_offsetByte (by omega)]; omega)
    exact ih hstore (by omega)

/-! ### The paced writes of a device at rest -/

/-- R158: `t` is reached from `s` by storing `bs` from offset `o` on in the device at `a`, which is `d`, with a Delay
after each byte. -/
structure Paced (a : Addr7) (o : Nat) (bs : List Byte) (d : Device) (s t : State) : Prop where
  run : BusRun s t
  device : t.device a = some (storePaced o bs d)
  others : ∀ b, b ≠ a → t.device b = if bs = [] then s.device b else (s.device b).map Device.rest
  hist : t.hist = s.hist ++ pacedEvents a o bs
  tx : t.tx = s.tx + bs.length
  draw : ∀ k, t.draw k = s.draw (bs.length + k)

theorem Paced.refl {a : Addr7} {o : Nat} {d : Device} {s : State} (hd : s.device a = some d) : Paced a o [] d s s where
  run := .refl s
  device := hd
  others _ _ := rfl
  hist := (List.append_nil _).symm
  tx := rfl
  draw k := by rw [List.length_nil, Nat.zero_add]

theorem busRun_trans {s t u : State} (h : BusRun s t) (h' : BusRun t u) : BusRun s u := by
  induction h' with
  | refl => exact h
  | write a bs _ ih => exact ih.write a bs
  | read a n _ ih => exact ih.read a n
  | wait _ ih => exact ih.wait

theorem Paced.cons {a : Addr7} {o : Nat} {v : Byte} {vs : List Byte} {d : Device} {s t u : State}
    (h : Paced a o [v] d s t) (h' : Paced a (o + 1) vs (storePaced o [v] d) t u) : Paced a o (v :: vs) d s u where
  run := busRun_trans h.run h'.run
  device := h'.device
  others b hb := by
    rw [h'.others b hb, h.others b hb, if_neg (List.cons_ne_nil v []), if_neg (List.cons_ne_nil v vs)]
    split
    · rfl
    · rw [Option.map_map]
      rfl
  hist := by rw [h'.hist, h.hist, List.append_assoc]; rfl
  tx := by rw [h'.tx, h.tx, Nat.add_assoc, Nat.add_comm [v].length]; rfl
  draw k := by rw [h'.draw, h.draw, ← Nat.add_assoc, Nat.add_comm [v].length]; rfl

section AtRest
variable {a : Addr7} {o : Nat} {d : Device} {s : State} (hd : s.device a = some d) (hw : d.wcp = false)
  (h256 : s.cfg.cap ≤ 256)
include hd hw h256

/-- R156: one byte of EE_WRITE, and the bytes after it from the next offset on. -/
theorem eeWriteLoop_byte {v : Byte} (ho : o < s.cfg.cap) (hok : (s.draw 0).ok = true) :
    ∃ t, (∀ vs, eeWriteLoop a o (v :: vs) s = eeWriteLoop a (o + 1) vs t) ∧ Paced a o [v] d s t := by
  have hwrite := i2cWrite_eq [offsetByte o, v] (hd ▸ writeOutcome_atRest_ok hw hok)
  have hstore : d.afterWrite s.cfg.cap s.tx [offsetByte o, v] .ok = d.store (offsetByte o) v :=
    (afterWrite_ok hw _).trans (if_pos (by rw [toNat_offsetByte (by omega)]; exact ho))
  have hrun := (BusRun.write a [offsetByte o, v] (.refl s)).wait
  rw [hwrite] at hrun
  refine ⟨_, fun vs => by rw [eeWriteLoop, hwrite], hrun, ?_, fun b hb => ?_, ?_, rfl, fun k => ?_⟩
  · rw [device_waitWriteCycle, device_completeTx_self, hd, Option.map_some, hstore]
    rfl
  · rw [device_waitWriteCycle, device_completeTx_other _ _ _ hb]
    rfl
  · rw [waitWriteCycle_hist, completeTx_hist, List.append_assoc]
    rfl
  · rw [draw_waitWriteCycle, draw_completeTx, Nat.add_comm]
    rfl

/-- R156, R158: on a reliable channel EE_WRITE stores and paces the bytes `xs` and goes on with those after them. -/
theorem eeWriteLoop_paced {xs : List Byte} (hcap : o + xs.length ≤ s.cfg.cap) (hch : ChannelReliable xs.length s)
    (ys : List Byte) :
    ∃ t, eeWriteLoop a o (xs ++ ys) s = eeWriteLoop a (o + xs.length) ys t ∧ Paced a o xs d s t := by
  induction xs generalizing o d s with
  | nil => exact ⟨s, rfl, .refl hd⟩
  | cons v vs ih =>
    rw [List.length_cons] at hcap
    obtain ⟨t, hstep, hv⟩ := eeWriteLoop_byte (o := o) (v := v) hd hw h256 (by omega) (hch 0 (Nat.succ_pos _))
    obtain ⟨-, -, -, -, hcfg, -, -⟩ := hv.run.kept
    have hrel : ChannelReliable vs.length t := fun k hk => by
      rw [hv.draw]
      exact hch _ (by simp only [List.length_cons, List.length_nil]; omega)
    obtain ⟨u, hrest, hvs⟩ := ih (o := o + 1) hv.device (storePaced_wcp [v] hw) (hcfg ▸ h256) (by rw [hcfg]; omega) hrel
    refine ⟨u, ?_, hv.cons hvs⟩
    rw [List.cons_append, hstep, hrest, List.length_cons, Nat.add_assoc, Nat.add_comm 1]

end AtRest

/-! ### EE_WRITE of a device at rest -/

/-- What a command reports and keeps that ends after channel operations. -/
theorem reported_of_busRun {s t : State} (h : BusRun s t) (st : Byte) (data : List Byte) :
    Reported s (respond st data t) st data ∧ Kept s (respond st data t) := by
  obtain ⟨hcrc, -, hcmd, hrsps, hcfg, hstream, hphases⟩ := h.kept
  exact ⟨⟨rfl, by rw [respond_rsps, hrsps], by rw [respond_cmd, hcmd]⟩, hcrc, hcfg, hstream, hphases⟩

theorem delayTime_pacedEvents (p : Params) (a : Addr7) (o : Nat) (bs : List Byte) :
    delayTime p (pacedEvents a o bs) = bs.length * p.tWc := by
  have hcount : (pacedEvents a o bs).countP (fun e => !isTx e) = bs.length := by
    induction bs generalizing o with
    | nil => rfl
    | cons v vs ih => rw [pacedEvents, List.countP_cons_of_neg Bool.false_ne_true, List.countP_cons_of_pos rfl, ih]; rfl
  rw [delayTime, hcount]

theorem delayTime_append_tx (p : Params) (es : List Event) {e : Event} (he : isTx e = true) :
    delayTime p (es ++ [e]) = delayTime p es := by
  simp [delayTime, he]

/-- R156, R158: EE_WRITE of a legal range of a device at rest on a reliable channel. -/
theorem eeWrite_atRest_ok {s : State} {a off : Byte} {bs : List Byte} {d : Device} (ha : a.getLsbD 7 = false)
    (h256 : s.cfg.cap ≤ 256) (hcap : off.toNat + bs.length ≤ s.cfg.cap) (hd : s.device (busAddr a) = some d)
    (hw : d.wcp = false) (hch : ChannelReliable bs.length s) :
    ∃ t, exec (.eeWrite a off bs) s = .next (respond 0x00#8 [] t) ∧ Paced (busAddr a) off.toNat bs d s t := by
  obtain ⟨t, hloop, hpaced⟩ := eeWriteLoop_paced hd hw h256 hcap hch []
  rw [List.append_nil, eeWriteLoop] at hloop
  refine ⟨t, ?_, hpaced⟩
  rw [exec_eeWrite ha hcap, hloop]
  rfl

/-- Settles O36: the loop over no byte. -/
theorem eeWriteOfNothingEndsOk : Obligations.EeWriteOfNothingEndsOk := fun _ _ _ ha hcap =>
  exec_eeWrite (bs := []) ha hcap

/-- Settles O35: the device and the history that paced writes leave. -/
theorem eeWriteStoresPayload : Obligations.EeWriteStoresPayload := by
  intro s a off bs d ha h256 hcap hd hw hfits hch
  obtain ⟨t, hx, hpaced⟩ := eeWrite_atRest_ok ha h256 hcap hd hw hch
  obtain ⟨hrep, hkept⟩ := reported_of_busRun hpaced.run 0x00#8 []
  obtain ⟨-, -, -, -, hcfg, -, -⟩ := hpaced.run.kept
  refine ⟨_, _, hx, hpaced.device, fun x => read_storePaced bs d x (by omega), storePaced_wcp bs hw,
    storePaced_ptr bs off.toNat d, hpaced.others, hpaced.hist, ?_, ?_, hrep, hkept⟩
  · rw [WriteCycleFits, respond_cfg, hcfg, storePaced_cycle]
    exact hfits
  · rw [respond_hist, hpaced.hist, List.drop_left, delayTime_pacedEvents]
    exact Nat.mul_le_mul_left _ hfits

/-- R61, R157: EE_WRITE of a device at rest whose transaction for the byte after `xs` fails. -/
theorem eeWrite_atRest_err {s : State} {a off v : Byte} {xs ys : List Byte} {d : Device} (ha : a.getLsbD 7 = false)
    (h256 : s.cfg.cap ≤ 256) (hcap : off.toNat + (xs ++ v :: ys).length ≤ s.cfg.cap)
    (hd : s.device (busAddr a) = some d) (hw : d.wcp = false) (hch : ChannelReliable xs.length s)
    (hfail : (s.draw xs.length).ok = false) :
    ∃ u, exec (.eeWrite a off (xs ++ v :: ys)) s = .next (respond (ioStatus (s.draw xs.length).cause) [] u) ∧
      BusRun s u ∧
      u.device (busAddr a) = some ((storePaced off.toNat xs d).store (offsetByte (off.toNat + xs.length))
        (Config.freeMemByte (s.tx + xs.length) (off.toNat + xs.length))) ∧
      u.hist = s.hist ++ pacedEvents (busAddr a) off.toNat xs ++
        [.txW (busAddr a) [offsetByte (off.toNat + xs.length), v] (.err (s.draw xs.length).cause)] := by
  have hlen : (xs ++ v :: ys).length = xs.length + (ys.length + 1) := List.length_append
  obtain ⟨t, hloop, hpaced⟩ := eeWriteLoop_paced (o := off.toNat) (xs := xs) hd hw h256 (by omega) hch (v :: ys)
  obtain ⟨-, -, -, -, hcfg, -, -⟩ := hpaced.run.kept
  have hidle := storePaced_wcp xs (o := off.toNat) hw
  have hdraw : t.draw 0 = s.draw xs.length := hpaced.draw 0
  have hwrite := i2cWrite_eq (r := .err (s.draw xs.length).cause) [offsetByte (off.toNat + xs.length), v]
    (by rw [hpaced.device, hdraw]; exact writeOutcome_atRest_err hidle hfail)
  have hrun := hpaced.run.write (busAddr a) [offsetByte (off.toNat + xs.length), v]
  rw [hwrite] at hrun
  have hoff : (offsetByte (off.toNat + xs.length)).toNat = off.toNat + xs.length := toNat_offsetByte (by omega)
  refine ⟨_, ?_, hrun, ?_, by rw [completeTx_hist, hpaced.hist]⟩
  · rw [exec_eeWrite ha hcap, hloop, eeWriteLoop, hwrite]
    rfl
  · rw [device_completeTx_self, hpaced.device, Option.map_some, afterWrite_err hidle, hpaced.tx]
    refine congrArg some ((if_pos ?_).trans ?_)
    · rw [hoff, hcfg]
      omega
    · rw [hoff]

/-- Settles O37: the bytes before the failing one are paced, and its own write stores a draw. -/
theorem eeWriteStopsAtFirstFailure : Obligations.EeWriteStopsAtFirstFailure := by
  intro s a off v xs ys d ha h256 hcap hd hw hfits hch hfail
  have hlen : (xs ++ v :: ys).length = xs.length + (ys.length + 1) := List.length_append
  obtain ⟨u, hx, hrun, hdev, hhist⟩ := eeWrite_atRest_err ha h256 hcap hd hw hch hfail
  obtain ⟨hrep, hkept⟩ := reported_of_busRun hrun (ioStatus (s.draw xs.length).cause) []
  obtain ⟨-, -, -, -, hcfg, -, -⟩ := hrun.kept
  refine ⟨_, _, hx, hdev, fun x => ?_, rfl, rfl, hhist, ?_, ?_, hrep, hkept⟩
  · rw [read_store, toNat_offsetByte (by omega), read_storePaced xs d x (by omega)]
    by_cases hxo : x = off.toNat + xs.length
    · rw [if_pos hxo, if_pos hxo, hxo]
    · rw [if_neg hxo, if_neg hxo]
  · rw [WriteCycleFits, respond_cfg, hcfg, Device.store, storePaced_cycle]
    exact hfits
  · rw [respond_hist, hhist, List.append_assoc, List.drop_left, delayTime_append_tx _ _ rfl, delayTime_pacedEvents]
    exact Nat.mul_le_mul_left _ hfits

/-! ### The Delays of EE_WRITE, whatever the devices and the channel do -/

/-- R157, R158: the paced writes succeed for every byte, or stop at the first failing transaction. -/
theorem eeWriteLoop_cases (a : Addr7) (bs : List Byte) (o : Nat) (s : State) :
    (∃ t, eeWriteLoop a o bs s = (.ok, t) ∧ t.hist = s.hist ++ pacedEvents a o bs) ∨
    ∃ xs v ys c t, bs = xs ++ v :: ys ∧ eeWriteLoop a o bs s = (.err c, t) ∧
      t.hist = s.hist ++ (pacedEvents a o xs ++ [.txW a [offsetByte (o + xs.length), v] (.err c)]) := by
  induction bs generalizing o s with
  | nil => exact .inl ⟨s, rfl, (List.append_nil _).symm⟩
  | cons v vs ih =>
    cases hr : writeOutcome (s.draw 0) (s.device a) with
    | err c => exact .inr ⟨[], v, vs, c, _, rfl, by rw [eeWriteLoop, i2cWrite_eq _ hr], rfl⟩
    | ok =>
      rw [eeWriteLoop, i2cWrite_eq _ hr]
      obtain ⟨t, hloop, hhist⟩ | ⟨xs, w, ys, c, t, rfl, hloop, hhist⟩ := ih (o + 1) (waitWriteCycle
        (completeTx a (Device.afterWrite s.cfg.cap s.tx [offsetByte o, v] .ok) (.txW a [offsetByte o, v] .ok) s))
      · refine .inl ⟨t, hloop, ?_⟩
        rw [hhist, waitWriteCycle_hist, completeTx_hist, List.append_assoc, List.append_assoc]
        rfl
      · refine .inr ⟨v :: xs, w, ys, c, t, rfl, hloop, ?_⟩
        rw [hhist, waitWriteCycle_hist, completeTx_hist, List.append_assoc, List.append_assoc, List.length_cons,
          Nat.add_assoc, Nat.add_comm 1]
        rfl

/-- Settles O39: one Delay for each byte that was written. -/
theorem eeWriteDelaysAddUp : Obligations.EeWriteDelaysAddUp := by
  intro s a off bs ha _ hcap
  have hx := exec_eeWrite ha hcap
  have hrun := BusRun.eeWriteLoop (busAddr a) bs off.toNat (.refl s)
  obtain ⟨t, hloop, hhist⟩ | ⟨xs, v, ys, c, t, hbs, hloop, hhist⟩ := eeWriteLoop_cases (busAddr a) bs off.toNat s
  · rw [hloop] at hx hrun
    have htime : delayTime s.cfg (t.hist.drop s.hist.length) = bs.length * s.cfg.tWc := by
      rw [hhist, List.drop_left, delayTime_pacedEvents]
    obtain ⟨hrep, -⟩ := reported_of_busRun hrun 0x00#8 []
    exact ⟨_, _, hx, hrep, Nat.le_of_eq htime,
      fun _ => ⟨htime, fun d _ hfits => htime ▸ Nat.mul_le_mul_left bs.length hfits⟩⟩
  · rw [hloop] at hx hrun
    have htime : delayTime s.cfg (t.hist.drop s.hist.length) = xs.length * s.cfg.tWc := by
      rw [hhist, List.drop_left, delayTime_append_tx _ _ rfl, delayTime_pacedEvents]
    have hlen : xs.length ≤ bs.length := by rw [hbs, List.length_append]; exact Nat.le_add_right _ _
    obtain ⟨hrep, -⟩ := reported_of_busRun hrun (ioStatus c) []
    exact ⟨_, _, hx, hrep, htime ▸ Nat.mul_le_mul_right _ hlen, fun hst => absurd hst (ioStatus_ne_ok c)⟩

/-! ### The clone property -/

/-- R161: storing all of a memory in a device makes the device's memory equal to it. -/
theorem storePaced_memoryBytes {cap : Nat} {m : Memory} {d : Device} (hm : Memory.wf cap m) (hd : Memory.wf cap d.mem)
    (h256 : cap ≤ 256) : (storePaced 0 (memoryBytes m 0 cap) d).mem = m := by
  have hlen : 0 + (memoryBytes m 0 cap).length = cap := by rw [memoryBytes_length, Nat.zero_add]
  refine Memory.wf_ext (wf_storePaced _ hd h256 (Nat.le_of_eq hlen)) hm fun o ho => ?_
  rw [read_storePaced _ d o (by omega), if_pos (Nat.zero_le o), Nat.sub_zero, memoryBytes_getElem? m 0 ho, Nat.zero_add]
  rfl

/-- Settles O41: the bytes read are all of the source's memory, and all of them are stored in the target. -/
theorem cloneCopiesWholeDevice : Obligations.CloneCopiesWholeDevice := by
  intro s a src ha ⟨hpos, h256, _⟩ hmax hd hw hsrc hch hcapm
  have hzero : (0x00#8 : Off8).toNat = 0 := rfl
  have hcount : (BitVec.ofNat 16 s.cfg.cap).toNat = s.cfg.cap := by
    rw [BitVec.toNat_ofNat]
    omega
  obtain ⟨t, hx, -, -, -, ⟨-, hrsps, -⟩, -⟩ :=
    eeRead_atRest_ok (off := 0x00#8) (n := BitVec.ofNat 16 s.cfg.cap) ha (by omega) (by omega) (by omega) hd hw hch
  rw [hcount, hzero] at hrsps
  have hlen := memoryBytes_length src.mem 0 s.cfg.cap
  refine ⟨t, _, hx, hrsps, hlen, fun o ho => ?_, fun u tgt hcfg hdu hwu hfits htgt hchu hcapu => ?_⟩
  · rw [memoryBytes_getElem? src.mem 0 ho, Nat.zero_add]
  have hwf : Memory.wf s.cfg.cap tgt.mem := ⟨htgt, hcfg ▸ hcapu _ _ hdu⟩
  obtain ⟨v, hv, hpaced⟩ := eeWrite_atRest_ok (off := 0x00#8) (bs := memoryBytes src.mem 0 s.cfg.cap) ha
    (hcfg ▸ h256) (by rw [hcfg]; omega) hdu hwu (by rw [hlen, ← hcfg]; exact hchu)
  obtain ⟨-, -, -, -, hcfgv, -, -⟩ := hpaced.run.kept
  refine ⟨_, _, hv, hpaced.device, storePaced_memoryBytes ⟨hsrc, hcapm _ _ hd⟩ hwf h256, storePaced_wcp _ hwu, rfl,
    ?_, ?_⟩
  · rw [WriteCycleFits, respond_cfg, hcfgv, storePaced_cycle]
    exact hfits
  · rw [respond_hist, hpaced.hist, List.drop_left, delayTime_pacedEvents, hlen]
    exact Nat.mul_le_mul_left _ hfits

end Sys2Proof.Proofs

/-! ## The CRC5 commands: the bit step, the byte step and the checksum of a message

The byte step is a fold of the bit step over the byte's bits (`crc5Byte_eq_foldl`), and a list of commands that feed the
CRC register is a fold of what each of them feeds (`runInstrs_feed`); CRC_BIT, CRC_BYTE and CRC_MSG meet in these folds. -/

namespace Sys2Proof.Proofs

open Sys2Proof.Machine Sys2Proof.Safety Sys2Proof.Laws

/-! ### The byte step as a fold of the bit step -/

/-- R182: the bits of `d` from the most significant one on. -/
theorem crc5Shift_eq_foldl (poly : Crc) (d : Byte) {n : Nat} (hn : n ≤ 8) (c : Crc) :
    crc5Shift poly n c (d <<< (8 - n)) =
      (List.range n).reverse.foldl (fun c j => crc5Bit poly c (d.getLsbD j)) c := by
  induction n generalizing c with
  | zero => rfl
  | succ n ih =>
    have hnext : 8 - (n + 1) + 1 = 8 - n := by omega
    have hbit : 7 - (8 - (n + 1)) = n := by omega
    rw [crc5Shift_shiftLeft _ _ _ _ _ (by omega), hnext, hbit, ih (by omega), List.range_succ, List.reverse_concat,
      List.foldl_cons]

/-- R182: the byte step feeds `d[7]` to `d[0]` to the bit step. -/
theorem crc5Byte_eq_foldl (poly c : Crc) (d : Byte) :
    crc5Byte poly c d = [7, 6, 5, 4, 3, 2, 1, 0].foldl (fun c j => crc5Bit poly c (d.getLsbD j)) c := by
  have h := crc5Shift_eq_foldl poly d (Nat.le_refl 8) c
  rwa [Nat.sub_self, BitVec.shiftLeft_zero] at h

/-! ### The steps are linear over GF(2) -/

/-- R180: the feedback bit and the shifted register are sums over GF(2), whatever POLY is. -/
theorem crc5Bit_xor (poly c c' : Crc) (b b' : Bool) :
    crc5Bit poly (c ^^^ c') (b ^^ b') = crc5Bit poly c b ^^^ crc5Bit poly c' b' := by
  refine BitVec.eq_of_getLsbD_eq fun j hj => ?_
  simp only [BitVec.getLsbD_xor, crc5Bit_getLsbD _ _ _ j hj, Bool.and_xor_distrib_left, Bool.and_xor_distrib_right,
    Bool.xor_assoc, Bool.xor_left_comm]

theorem crc5Shift_xor (poly c c' : Crc) (n : Nat) (t t' : Byte) :
    crc5Shift poly n (c ^^^ c') (t ^^^ t') = crc5Shift poly n c t ^^^ crc5Shift poly n c' t' := by
  induction n generalizing c c' t t' with
  | zero => rfl
  | succ n ih => rw [crc5Shift, BitVec.getLsbD_xor, crc5Bit_xor, BitVec.shiftLeft_xor_distrib, ih, crc5Shift, crc5Shift]

/-- Settles O9: each of the eight bit steps is linear. -/
theorem crcByteStepIsLinear : Obligations.CrcByteStepIsLinear := fun poly c c' d d' => crc5Shift_xor poly c c' 8 d d'

/-! ### The commands -/

/-- A command that ends OK with no data and has changed the CRC register alone, to `feed POLY CRC`. -/
def FeedsCrc (i : Instr) (feed : Crc → Crc → Crc) : Prop :=
  ∀ s, exec i s = .next (respond statusOk [] (s.withCrc (feed s.cfg.poly s.crc)))

theorem feedsCrc_crcByte (d : Byte) : FeedsCrc (.crcByte d) (crc5Byte · · d) := fun _ => rfl

theorem feedsCrc_crcBit {d8 : Byte} (h : dataBitReserved d8 = false) :
    FeedsCrc (.crcBit d8) (crc5Bit · · (dataBit d8)) := fun _ => if_neg (Bool.eq_false_iff.mp h)

theorem exec_crcInit (s : State) : exec .crcInit s = .next (respond statusOk [] (s.withCrc s.cfg.init)) := rfl

theorem exec_crcRead (s : State) : exec .crcRead s = .next (respond statusOk [crcByteOf s.crc] s) := rfl

theorem exec_crcMsg (d : List Byte) (s : State) :
    exec (.crcMsg d) s = .next (respond statusOk [crcByteOf (crc5 s.cfg d)] (s.withCrc (crc5 s.cfg d))) := rfl

/-- R95: D8 with D8[7:1] = 0. -/
theorem dataBitReserved_of_clear {d8 : Byte} (h : ∀ j, 1 ≤ j → j < 8 → d8.getLsbD j = false) :
    dataBitReserved d8 = false := by
  refine bne_eq_false_iff_eq.mpr (BitVec.eq_of_getLsbD_eq fun j hj => ?_)
  rw [BitVec.getLsbD_extractLsb', h (1 + j) (by omega) (by omega), Bool.and_false, BitVec.getLsbD_zero]

/-- Settles O2: `crc5Bit_getLsbD`, at bit 0 and above it. -/
theorem crcBitFeedsOneBit : Obligations.CrcBitFeedsOneBit := by
  intro s d8 hclear
  refine ⟨_, feedsCrc_crcBit (dataBitReserved_of_clear hclear) s, ?_, fun j h1 h4 => ?_⟩
  · rw [withCrc_crc, crc5Bit_getLsbD _ _ _ 0 (Nat.zero_lt_succ 4)]
    exact Bool.false_xor _
  · rw [withCrc_crc, crc5Bit_getLsbD _ _ _ j (Nat.lt_succ_of_le h4), decide_eq_true (show 0 < j from h1), Bool.true_and]
    rfl

/-- Settles O1: its frame is the opcode alone. -/
theorem crcInitLoadsInit : Obligations.CrcInitLoadsInit :=
  ⟨fun rest => decode_encode (i := .crcInit) rest rfl, exec_crcInit⟩

/-- Settles O3: the byte step is that fold. -/
theorem crcByteFeedsBitsMsbFirst : Obligations.CrcByteFeedsBitsMsbFirst := by
  refine ⟨fun d rest => decode_encode (i := .crcByte d) rest rfl, fun s d => ?_⟩
  rw [← crc5Byte_eq_foldl]
  exact feedsCrc_crcByte d s

/-- Settles O5: its frame is the opcode alone, and the register fits in a byte. -/
theorem crcReadReturnsRegister : Obligations.CrcReadReturnsRegister :=
  ⟨fun rest => decode_encode (i := .crcRead) rest rfl, fun s => ⟨_, crcByteOf_toNat s.crc, exec_crcRead s⟩⟩

theorem countOf_toNat (nh nl : Byte) : (countOf nh nl).toNat = nh.toNat * 256 + nl.toNat := by
  rw [countOf, BitVec.toNat_append, ← Nat.shiftLeft_add_eq_or_of_lt nl.isLt, Nat.shiftLeft_eq]

/-- R92: NH and NL of a payload of NH·256 + NL bytes. -/
theorem lengthBytes_of_length {nh nl : Byte} {d : List Byte} (h : d.length = nh.toNat * 256 + nl.toNat) :
    lengthBytes d = [nh, nl] := by
  rw [lengthBytes, h, ← countOf_toNat, BitVec.ofNat_toNat, BitVec.setWidth_eq, countBytes_countOf]

/-- Settles O6: the frame is the one the encoder writes, and CRC_MSG does not look at the CRC register. -/
theorem crcMsgReturnsChecksum : Obligations.CrcMsgReturnsChecksum := by
  refine ⟨fun nh nl d rest hlen => ?_, fun s d => ⟨_, _, rfl, crcByteOf_toNat _, fun _ => exec_crcMsg d _⟩⟩
  have hframe : encode (.crcMsg d) = 0x05#8 :: nh :: nl :: d := by
    rw [encode, lengthBytes_of_length hlen]
    rfl
  have hfits : payloadFits d = true := decide_eq_true (by omega)
  have hdecode := decode_encode (i := .crcMsg d) rest hfits
  rwa [hframe] at hdecode

/-! ### Commands one after another -/

/-- Commands that feed the CRC register one after another leave the fold of what each feeds, and the rest unchanged. -/
theorem runInstrs_feed {α : Type} {mk : α → Instr} {feed : Crc → Crc → α → Crc}
    (hfeed : ∀ x, FeedsCrc (mk x) (feed · · x)) (xs : List α) (s : State) :
    ∃ t, runInstrs (xs.map mk) s = some t ∧ t.crc = xs.foldl (feed s.cfg.poly) s.crc ∧ t.dev = s.dev ∧
      t.hist = s.hist := by
  induction xs generalizing s with
  | nil => exact ⟨s, rfl, rfl, rfl, rfl⟩
  | cons x xs ih =>
    rw [List.map_cons, runInstrs, hfeed x s]
    exact ih (respond statusOk [] (s.withCrc (feed s.cfg.poly s.crc x)))

/-- R185: CRC_BIT with one bit as its operand. -/
theorem feedsCrc_crcBit_bit (b : Bool) : FeedsCrc (.crcBit (if b then 0x01#8 else 0x00#8)) (crc5Bit · · b) := by
  cases b with
  | false => exact feedsCrc_crcBit rfl
  | true => exact feedsCrc_crcBit rfl

/-- Settles O4: both leave the fold of the bit step over the bits of `d`. -/
theorem crcByteEqualsEightCrcBits : Obligations.CrcByteEqualsEightCrcBits := by
  intro s d
  obtain ⟨u, hrun, hcrc, hdev, hhist⟩ :=
    runInstrs_feed (fun j => feedsCrc_crcBit_bit (d.getLsbD j)) [7, 6, 5, 4, 3, 2, 1, 0] s
  exact ⟨_, u, feedsCrc_crcByte d s, hrun, hcrc.trans (crc5Byte_eq_foldl s.cfg.poly s.crc d).symm, hdev, hhist⟩

/-- R189: the bytes behind a part of a message go on from that part's checksum. -/
theorem crc5_append (p : Params) (xs ys : List Byte) :
    crc5 p (xs ++ ys) = crc5Bytes p.poly (crc5 p xs) ys := crc5Bytes_append p.poly p.init xs ys

/-- R189: bytes fed one by one go on from the CRC register. -/
theorem runInstrs_crcBytes (bs : List Byte) (s : State) :
    ∃ t, runInstrs (bs.map .crcByte) s = some t ∧ t.crc = crc5Bytes s.cfg.poly s.crc bs := by
  obtain ⟨t, hrun, hcrc, -, -⟩ := runInstrs_feed feedsCrc_crcByte bs s
  exact ⟨t, hrun, hcrc⟩

/-- Settles O7: feeding `ys` after `xs` is feeding `xs ++ ys`. -/
theorem splitMessageKeepsChecksum : Obligations.SplitMessageKeepsChecksum := by
  refine fun s xs ys => ⟨?_, ?_⟩
  · rw [runInstrs, exec_crcMsg, crc5_append]
    exact runInstrs_crcBytes ys _
  · rw [runInstrs, exec_crcInit, ← List.map_append]
    exact runInstrs_crcBytes (xs ++ ys) _

end Sys2Proof.Proofs

/-! ## The header decoder: what is present, and what each field shows

The record's fields are all `decodeField`, so a fact about one field is a lemma about every `HeaderField` first. -/

namespace Sys2Proof.Proofs

open Sys2Proof.Machine Sys2Proof.Safety Sys2Proof.Laws

/-! ### Which fields are present -/

theorem mem_headerFields (f : HeaderField) : f ∈ HeaderField.all := by cases f <;> decide

theorem mem_skippedFields (f : HeaderField) (image : List Byte) :
    f ∈ skippedFields image ↔ image.length < f.last := by
  rw [skippedFields, List.mem_filter, and_iff_right (mem_headerFields f), Bool.not_eq_true', Bool.eq_false_iff, ne_eq,
    present_iff, Nat.not_le]

/-- R212: the last range to end is that of crc5_class_info. -/
theorem skippedFields_eq_nil_iff (image : List Byte) : skippedFields image = [] ↔ 128 ≤ image.length := by
  rw [List.eq_nil_iff_forall_not_mem]
  constructor
  · intro hnone
    exact Nat.not_lt.mp fun hlt => hnone .crc5ClassInfo ((mem_skippedFields _ _).mpr hlt)
  · intro hlen f hf
    have hlast := last_le_128 f
    have hlt := (mem_skippedFields f image).mp hf
    omega

/-- Settles O55: every field of the record is `decodeField` of its range. -/
theorem decoderOmitsOutOfRangeFields : Obligations.DecoderOmitsOutOfRangeFields := fun _ image =>
  ⟨isSome_decodeField image .serialNumberRaw _, isSome_decodeField image .serialNumberAscii _,
    isSome_decodeField image .productIdRaw _, isSome_decodeField image .productIdAscii _,
    isSome_decodeField image .bomVersion _, isSome_decodeField image .pcbVersion _,
    isSome_decodeField image .fixtureVersion _, isSome_decodeField image .crc5FixtureHeader _,
    isSome_decodeField image .crc5CgminerHeader _, isSome_decodeField image .crc5ClassInfo _,
    (mem_skippedFields · image), List.filter_sublist, skippedFields_eq_nil_iff image⟩

/-- Settles O56: no range ends past byte 128. -/
theorem decoderReadsFirst128Bytes : Obligations.DecoderReadsFirst128Bytes :=
  fun p image _ => (decodeHeader_take_128 p image).symm

/-! ### Text -/

theorem length_bytes {f : HeaderField} {image : List Byte} (h : f.last ≤ image.length) :
    (f.bytes image).length = f.last - f.first := by
  rw [HeaderField.bytes, imageSlice, List.length_take, List.length_drop]
  omega

/-- R213, R214: a raw field and the ASCII field of the same range, byte by byte. -/
theorem rawAndAscii_of_le {raw ascii : HeaderField} {image : List Byte} (hfirst : ascii.first = raw.first)
    (hlast : ascii.last = raw.last) (h : raw.last ≤ image.length) :
    ∃ bs cs, decodeField image raw id = some bs ∧ decodeField image ascii (List.map asciiOf) = some cs ∧
      bs.length = raw.last - raw.first ∧ cs.length = raw.last - raw.first ∧
      ∀ k, k < raw.last - raw.first →
        bs[k]? = image[raw.first + k]? ∧ cs[k]? = (image[raw.first + k]?).map asciiOf := by
  have hbytes : ascii.bytes image = raw.bytes image := by rw [HeaderField.bytes, hfirst, hlast, HeaderField.bytes]
  refine ⟨_, _, decodeField_of_le id h, decodeField_of_le _ (hlast ▸ h), length_bytes h, ?_, fun k hk => ?_⟩
  · rw [List.length_map, hbytes, length_bytes h]
  · have hbyte : (raw.bytes image)[k]? = image[raw.first + k]? := imageSlice_getElem? (by omega)
    exact ⟨hbyte, by rw [List.getElem?_map, hbytes, hbyte]⟩

/-- Settles O57: the two ranges that are shown as text. -/
theorem decoderMapsAsciiByteForByte : Obligations.DecoderMapsAsciiByteForByte := fun _ _ =>
  ⟨rawAndAscii_of_le (raw := .serialNumberRaw) (ascii := .serialNumberAscii) rfl rfl,
    rawAndAscii_of_le (raw := .productIdRaw) (ascii := .productIdAscii) rfl rfl⟩

theorem map_asciiOf_of_printable {bs : List Byte} (h : ∀ b ∈ bs, 32 ≤ b.toNat ∧ b.toNat ≤ 126) :
    bs.map asciiOf = bs.map fun b => Char.ofNat b.toNat :=
  List.map_congr_left fun b hb => if_pos (h b hb)

/-! ### Versions -/

/-- R216: the sixteen digits in the case of HEX_CASE. -/
def hexDigits : HexCase → List Char
  | .lower => "0123456789abcdef".toList
  | .upper => "0123456789ABCDEF".toList

theorem hexDigits_getElem? (hc : HexCase) (d : BitVec 4) : (hexDigits hc)[d.toNat]? = some (hexDigit hc d) := by
  cases hc with
  | lower => decide +revert
  | upper => decide +revert

/-- The hexadecimal digit at place `j` of a word. -/
theorem extractLsb'_nibble_toNat (v : BitVec 16) (j : Nat) : (v.extractLsb' (4 * j) 4).toNat = v.toNat / 16 ^ j % 16 := by
  rw [BitVec.extractLsb'_toNat, Nat.shiftRight_eq_div_pow, Nat.pow_mul]

/-- R216: the k-th character shows the digit at place 3 - k. -/
theorem renderBom_getElem? (hc : HexCase) (v : BitVec 16) {k : Nat} (hk : k < 4) :
    (renderBom hc v)[k]? = (hexDigits hc)[v.toNat / 16 ^ (3 - k) % 16]? := by
  have hchar : (renderBom hc v)[k]? = some (hexDigit hc (v.extractLsb' (4 * (3 - k)) 4)) := by
    match k, hk with
    | 0, _ | 1, _ | 2, _ | 3, _ => rfl
  rw [hchar, ← hexDigits_getElem?, extractLsb'_nibble_toNat]

/-- R215: a field of two bytes holds these two. -/
theorem decodeField_of_twoBytes {α : Type} {f : HeaderField} {image : List Byte} {hi lo : Byte} (value : List Byte → α)
    (hf : f.last = f.first + 2) (hhi : image[f.first]? = some hi) (hlo : image[f.first + 1]? = some lo) :
    decodeField image f value = some (value [hi, lo]) := by
  obtain ⟨hhi', hhiv⟩ := List.getElem?_eq_some_iff.mp hhi
  obtain ⟨hlo', hlov⟩ := List.getElem?_eq_some_iff.mp hlo
  have hbytes : f.bytes image = [hi, lo] := by
    rw [HeaderField.bytes, imageSlice, hf, Nat.add_sub_cancel_left, List.drop_eq_getElem_cons hhi',
      List.drop_eq_getElem_cons hlo', hhiv, hlov]
    rfl
  rw [decodeField_of_le value (by omega), hbytes]

/-- R215: the number is the one that NH and NL make of the same two bytes (R92). -/
theorem bigEndian_toNat (hi lo : Byte) : (bigEndian [hi, lo]).toNat = hi.toNat * 256 + lo.toNat := countOf_toNat hi lo

/-! ### An image built of parts -/

/-- R220: a field decodes the bytes that stand in its range at the end of a beginning of the image. -/
theorem decodeField_of_prefix {α : Type} {f : HeaderField} {image pre bs : List Byte} (value : List Byte → α)
    (h : pre ++ bs <+: image) (hfirst : pre.length = f.first) (hlast : (pre ++ bs).length = f.last) :
    decodeField image f value = some (value bs) := by
  have hlen : f.last ≤ image.length := hlast ▸ h.length_le
  obtain ⟨post, rfl⟩ := h
  have hwidth : bs.length = f.last - f.first := by
    rw [List.length_append] at hlast
    omega
  have hbytes : f.bytes (pre ++ bs ++ post) = bs := by
    rw [HeaderField.bytes, imageSlice, List.append_assoc, List.drop_left' hfirst, List.take_left' hwidth]
  rw [decodeField_of_le value hlen, hbytes]

theorem bigEndian_countBytes (v : BitVec 16) : bigEndian (countBytes v) = v := countOf_countBytes v

theorem length_countBytes (v : BitVec 16) : (countBytes v).length = 2 := rfl

/-- R220: a version field gives back the word of which it holds the two bytes. -/
theorem decodeField_of_prefix_countBytes {f : HeaderField} {image pre : List Byte} {v : BitVec 16}
    (h : pre ++ countBytes v <+: image) (hfirst : pre.length = f.first) (hlast : (pre ++ countBytes v).length = f.last) :
    decodeField image f bigEndian = some v := by
  rw [decodeField_of_prefix bigEndian h hfirst hlast, bigEndian_countBytes]

/-- R220: every field's bytes end a beginning of the image, so the fields follow one another along these beginnings. -/
theorem decodeRecord_of_parts (p : Params) {image head serial product : List Byte} {v1 v2 v3 : BitVec 16}
    (hhead : head.length = 4) (hserial : serial.length = 17) (hproduct : product.length = 4)
    (h3 : head ++ serial ++ product ++ countBytes v1 ++ countBytes v2 ++ countBytes v3 <+: image) :
    (decodeRecord p image).serialNumberRaw = some serial ∧ (decodeRecord p image).productIdRaw = some product ∧
    (decodeRecord p image).serialNumberAscii = some (serial.map asciiOf) ∧
    (decodeRecord p image).productIdAscii = some (product.map asciiOf) ∧
    (decodeRecord p image).bomVersion = some v1 ∧ (decodeRecord p image).pcbVersion = some v2 ∧
    (decodeRecord p image).fixtureVersion = some v3 := by
  have h2 := (List.prefix_append _ _).trans h3
  have h1 := (List.prefix_append _ _).trans h2
  have hp := (List.prefix_append _ _).trans h1
  have hs := (List.prefix_append _ _).trans hp
  have h21 : (head ++ serial).length = 21 := by rw [List.length_append, hhead, hserial]
  have h25 : (head ++ serial ++ product).length = 25 := by rw [List.length_append, h21, hproduct]
  have h27 : (head ++ serial ++ product ++ countBytes v1).length = 27 := by
    rw [List.length_append, h25, length_countBytes]
  have h29 : (head ++ serial ++ product ++ countBytes v1 ++ countBytes v2).length = 29 := by
    rw [List.length_append, h27, length_countBytes]
  have h31 : (head ++ serial ++ product ++ countBytes v1 ++ countBytes v2 ++ countBytes v3).length = 31 := by
    rw [List.length_append, h29, length_countBytes]
  exact ⟨decodeField_of_prefix id hs hhead h21, decodeField_of_prefix id hp h21 h25,
    decodeField_of_prefix _ hs hhead h21, decodeField_of_prefix _ hp h21 h25,
    decodeField_of_prefix_countBytes h1 h25 h27, decodeField_of_prefix_countBytes h2 h27 h29,
    decodeField_of_prefix_countBytes h3 h29 h31⟩

/-- Settles O58: a version field by its two bytes, and the built image by its parts. -/
theorem decoderRoundTripsFields : Obligations.DecoderRoundTripsFields := by
  refine ⟨fun p image => ⟨isSome_decodeField image .bomVersion fun bs => renderBom p.hexCase (bigEndian bs),
    fun hi lo => ⟨fun hhi hlo => ?_, fun hhi hlo => ?_, fun hhi hlo => ?_⟩⟩, ?_⟩
  · exact ⟨_, _, decodeField_of_twoBytes (f := .bomVersion) bigEndian rfl hhi hlo, bigEndian_toNat hi lo,
      decodeField_of_twoBytes (f := .bomVersion) (fun bs => renderBom p.hexCase (bigEndian bs)) rfl hhi hlo, rfl,
      fun k hk => renderBom_getElem? _ _ hk⟩
  · exact ⟨_, decodeField_of_twoBytes (f := .pcbVersion) bigEndian rfl hhi hlo, bigEndian_toNat hi lo⟩
  · exact ⟨_, decodeField_of_twoBytes (f := .fixtureVersion) bigEndian rfl hhi hlo, bigEndian_toNat hi lo⟩
  · intro p head serial product tail v1 v2 v3 hhead hserial hproduct _ hprint
    obtain ⟨hprintSerial, hprintProduct⟩ := List.forall_mem_append.mp hprint
    rw [← map_asciiOf_of_printable hprintSerial, ← map_asciiOf_of_printable hprintProduct]
    exact decodeRecord_of_parts p hhead hserial hproduct ⟨tail, by simp [countBytes]⟩

/-! ### Checksums -/

/-- R190, R217: a checksum field is what CRC_MSG over the field's range answers. -/
theorem crcField_eq_crcMsg (s : State) {image : List Byte} {f : HeaderField} (h : f.last ≤ image.length) :
    ∃ c t b, decodeField image f (crc5 s.cfg) = some c ∧ c = crc5 s.cfg (f.bytes image) ∧
      exec (.crcMsg (f.bytes image)) s = .next t ∧ Reported s t 0x00#8 [b] ∧ b.toNat = c.toNat :=
  ⟨_, _, _, decodeField_of_le _ h, rfl, exec_crcMsg _ s, ⟨rfl, rfl, rfl⟩, crcByteOf_toNat _⟩

/-- Settles O59: the three ranges are those of the checksum fields. -/
theorem decoderChecksumsAreCrcMessages : Obligations.DecoderChecksumsAreCrcMessages := fun s _ =>
  ⟨crcField_eq_crcMsg s (f := .crc5FixtureHeader), crcField_eq_crcMsg s (f := .crc5CgminerHeader),
    crcField_eq_crcMsg s (f := .crc5ClassInfo)⟩

end Sys2Proof.Proofs

/-! ## Reset, the host's acts between two commands, and the launch premises

After reset the CRC register holds INIT, so the checksum of a message fed byte by byte is what `runInstrs_crcBytes` says
of the register. The launch premises follow from reset having no device (notes/assumptions/5.md) and no event. -/

namespace Sys2Proof.Proofs

open Sys2Proof.Machine Sys2Proof.Safety Sys2Proof.Laws

/-! ### A message right after reset -/

theorem runInstrs_append (is js : List Instr) (s : State) :
    runInstrs (is ++ js) s = (runInstrs is s).bind (runInstrs js) := by
  induction is generalizing s with
  | nil => rfl
  | cons i is ih =>
    rw [List.cons_append, runInstrs, runInstrs]
    cases exec i s with
    | next t => exact ih t
    | fault r => rfl
    | refused r => rfl

/-- Settles O8: the bytes go on from the INIT that reset leaves in the CRC register, and CRC_READ answers the register. -/
theorem checksumWithoutInitAfterReset : Obligations.ChecksumWithoutInitAfterReset := by
  intro s bs
  obtain ⟨u, hrun, hcrc⟩ : ∃ u, runInstrs (bs.map .crcByte) (resetBlock s) = some u ∧ u.crc = crc5 s.cfg bs :=
    runInstrs_crcBytes bs (resetBlock s)
  refine ⟨respond statusOk [crcByteOf u.crc] u, crcByteOf u.crc, ?_, hcrc, ?_, ?_⟩
  · rw [runInstrs_append, hrun, Option.bind_some, runInstrs, exec_crcRead]
    rfl
  · rw [crcByteOf_toNat, hcrc]
  · rw [respond_rsps, List.getLast?_concat]
    rfl

/-! ### The host's turn -/

/-- R278, R36: on an empty stream, and while a frame is still to come, the step is the host's next act. -/
theorem step_hostAct {s : State} {p : Phase} {ps : List Phase} (hs : s.stream = []) (hp : s.phases = p :: ps)
    (hend : ¬ ended s) : step s = .next { hostAct p.act s with stream := p.stream, phases := ps } := by
  have hleft : framesLeft (p :: ps) = true := (framesLeft_iff _).mpr fun h => hend ⟨hs, hp ▸ h⟩
  rw [step, fetch, if_pos hs, hostTurn, hp]
  exact if_pos hleft

/-- Settles O49: the step is the swap, and the swap changes DEV at its address alone. -/
theorem hostSwapReplacesOneDevice : Obligations.HostSwapReplacesOneDevice := by
  intro s a d bs ps hs hp hend
  refine ⟨_, step_hostAct hs hp hend, ?_, fun b hb => ?_, rfl⟩
  · exact (lookup_swapDevice a a d s.dev).trans (if_pos rfl)
  · exact (lookup_swapDevice a b d s.dev).trans (if_neg hb)

/-! ### The state after reset -/

/-- Settles O48: the values that the block's reset writes, and those of the state after reset. -/
theorem resetValues : Obligations.ResetValues :=
  ⟨fun s => ⟨resetBlock_crc s, resetBlock_status s, resetBlock_fsm s, device_resetBlock s⟩, rfl, rfl, rfl, rfl, rfl, rfl⟩

@[simp] theorem device_reset (a : Addr7) : State.reset.device a = none := rfl

theorem inv_reset : Inv State.reset where
  params := by decide
  devices := ⟨.nil, List.forall_mem_nil _⟩
  swaps := List.forall_mem_nil _
  status := legalStatus_ok
  transceiver := rfl
  responses := rfl
  responsesWf := List.forall_mem_nil _
  transactions := rfl

theorem cleanEntry_reset : CleanEntry State.reset :=
  ⟨rfl, rfl, rfl, rfl, rfl, fun a d hd => by simp at hd⟩

/-- Settles O51: no device is present after reset. -/
theorem resetMeetsInvariant : Obligations.ResetMeetsInvariant :=
  ⟨inv_reset, cleanEntry_reset, capMatches_of_inv inv_reset⟩

end Sys2Proof.Proofs
